-- ==== Sys2Proof/Word.lean ====
section
/-! DEFINITION. Word.lean: the words, characters and texts of the block's ports, and the three characters the
spec names. No arithmetic stands here: all of it is in Machine/Numbers.lean. -/

namespace Sys2Proof

/-- The word of the value ports `VAL_IN`, `VAL_OUT`; bit `i` has weight `2^i` (R9, R42, R76). -/
abbrev Word := BitVec 64

/-- The command word `CMD`, format `CMD4`: bits 3 to 1 are `op`, bit 0 is `fmt` (R60). -/
abbrev CommandWord := BitVec 4

/-- One 8-bit character code of a text port (R65). -/
abbrev CharCode := BitVec 8

/-- A finite sequence of characters, position 0 first: the spec's `Text` (R10) and `RawText` (R66). -/
abbrev Text := List CharCode

/-- The character `'0'` (R65; the code is the spec's general-knowledge passage G1, log 11). -/
abbrev charZero : CharCode := 0x30#8

/-- The character `'1'` (R65). -/
abbrev charOne : CharCode := 0x31#8

/-- The space U+0020 (R65). -/
abbrev charSpace : CharCode := 0x20#8

end Sys2Proof
end

