-- ==== Sys2Proof/Syntax.lean ====
section
/-! DEFINITION. Syntax.lean: the ten commands, one constructor per row of spec/opcode_table.json. A command word has
no operand field (R60): operands stand on the input ports, so no constructor has an argument. -/

namespace Sys2Proof

/-- The ten commands (R2, R62). -/
inductive Instr where
  /-- FMTINFO.B32, `CMD` 0x0 (R100). -/
  | fmtinfoB32
  /-- FMTINFO.B64, `CMD` 0x1 (R101). -/
  | fmtinfoB64
  /-- ENCODE.B32, `CMD` 0x2 (R110). -/
  | encodeB32
  /-- ENCODE.B64, `CMD` 0x3 (R111). -/
  | encodeB64
  /-- DECODE.B32, `CMD` 0x4 (R130). -/
  | decodeB32
  /-- DECODE.B64, `CMD` 0x5 (R136). -/
  | decodeB64
  /-- EXTRACT.B32, `CMD` 0x6 (R150). -/
  | extractB32
  /-- EXTRACT.B64, `CMD` 0x7 (R151). -/
  | extractB64
  /-- CLASSIFY.B32, `CMD` 0x8 (R160). -/
  | classifyB32
  /-- CLASSIFY.B64, `CMD` 0x9 (R161). -/
  | classifyB64
  deriving DecidableEq, Repr

end Sys2Proof
end

