-- ==== Sys2Proof/Decode.lean ====
section
/-! DEFINITION. Decode.lean: from a command word to a command or a rejection by name (R62, R64), total on every word;
then the encoder, written from the same table; then the host's reading of a table word. -/

namespace Sys2Proof

/-- Why a command word is no command. -/
inductive DecodeError where
  /-- `op` is 5, 6 or 7 (R64): the word is reserved, for either `fmt`. -/
  | reservedOperation (op : BitVec 3) (fmt : BitVec 1)
  deriving DecidableEq, Repr

/-- `CMD[3:1]` (R60). -/
def opField (w : CommandWord) : BitVec 3 := w.extractLsb' 1 3

/-- `CMD[0]` (R60). -/
def fmtField (w : CommandWord) : BitVec 1 := w.extractLsb' 0 1

/-- The table of R62, field by field: the two commands of an operation, the binary32 one first (`fmt = 0`, R61). -/
def decode (w : CommandWord) : Except DecodeError Instr :=
  match opField w with
  | 0#3 => .ok (if fmtField w = 0#1 then .fmtinfoB32 else .fmtinfoB64)
  | 1#3 => .ok (if fmtField w = 0#1 then .encodeB32 else .encodeB64)
  | 2#3 => .ok (if fmtField w = 0#1 then .decodeB32 else .decodeB64)
  | 3#3 => .ok (if fmtField w = 0#1 then .extractB32 else .extractB64)
  | 4#3 => .ok (if fmtField w = 0#1 then .classifyB32 else .classifyB64)
  | op => .error (.reservedOperation op (fmtField w))

/-- The command word of a command, from the `CMD` column of R62's table. -/
def encode : Instr → CommandWord
  | .fmtinfoB32 => 0b0000#4
  | .fmtinfoB64 => 0b0001#4
  | .encodeB32 => 0b0010#4
  | .encodeB64 => 0b0011#4
  | .decodeB32 => 0b0100#4
  | .decodeB64 => 0b0101#4
  | .extractB32 => 0b0110#4
  | .extractB64 => 0b0111#4
  | .classifyB32 => 0b1000#4
  | .classifyB64 => 0b1001#4

/-- The written name of a command (R62, R77), as the opcode table spells it. -/
def mnemonic : Instr → String
  | .fmtinfoB32 => "FMTINFO.B32"
  | .fmtinfoB64 => "FMTINFO.B64"
  | .encodeB32 => "ENCODE.B32"
  | .encodeB64 => "ENCODE.B64"
  | .decodeB32 => "DECODE.B32"
  | .decodeB64 => "DECODE.B64"
  | .extractB32 => "EXTRACT.B32"
  | .extractB64 => "EXTRACT.B64"
  | .classifyB32 => "CLASSIFY.B32"
  | .classifyB64 => "CLASSIFY.B64"

/-- The command the decoder reads from a table word. The table gives a row four bits, so a number of more than four
bits is no word of it (log 17). -/
def decodeTableWord (_nbits w : Nat) : Option Instr :=
  if w < 16 then
    match decode (BitVec.ofNat 4 w) with
    | .ok i => some i
    | .error _ => none
  else none

end Sys2Proof
end

