-- ==== Sys2Proof/Config.lean ====
section
/-! DEFINITION. Config.lean: what is fixed when the block is built. The Format Catalog's two constant descriptors
(R24), the type of the OPEN build parameters a model takes as arguments (R6), and the two free values of the NaN
draws (R116, R135), which have no body. -/

namespace Sys2Proof

/-- FormatDescriptor (glossary of 00_scope.md, R7, R24): the four numbers of a format. -/
structure FormatDescriptor where
  bias : Nat
  exponentBits : Nat
  fractionBits : Nat
  totalBits : Nat
  deriving DecidableEq, Repr

/-- The canonical descriptor `binary32` of the Format Catalog (R24). -/
abbrev binary32 : FormatDescriptor :=
  { bias := 127, exponentBits := 8, fractionBits := 23, totalBits := 32 }

/-- The canonical descriptor `binary64` of the Format Catalog (R24). -/
abbrev binary64 : FormatDescriptor :=
  { bias := 1023, exponentBits := 11, fractionBits := 52, totalBits := 64 }

/-- The parameter `ERRFOLD` (R6, R173): whether InvalidCharacter has a code of its own. -/
inductive ErrFold where
  /-- InvalidCharacter is code 2 (the default). -/
  | separate
  /-- InvalidCharacter is reported with LengthMismatch's code 1; code 2 is never driven. -/
  | folded
  deriving DecidableEq, Repr

/-- The OPEN parameters of a build that some rule reads (R6). `T_PD` is read by no rule and is not here (log 14). -/
structure Params where
  /-- `MAXCH`, the capacity of the text input port (D5). -/
  maxch : Nat
  /-- `WS`, the set of characters that count as whitespace (D7), as a rising list (log 18). -/
  ws : Text
  /-- `ERRFOLD` (D9). -/
  errFold : ErrFold
  deriving DecidableEq, Repr

/-- The build of the spec's defaults: `MAXCH` its suggested 128, `WS` the space only, `ERRFOLD` separate (R6; log 2). -/
def Params.standard : Params := { maxch := 128, ws := [charSpace], errFold := .separate }

/-- FREE VALUE (log 8): the implementation's draw `nan_enc(F, VAL_IN)` of R116, raw: a sign and a number. The first
argument is how many draws were made before, so that no two evaluations need draw alike. It has no body: nothing can
be proved of its value. `nanPattern` turns it into an admissible NaN pattern. -/
opaque Config.nanEncDraw : Nat → FormatDescriptor → Word → Bool × Nat

/-- FREE VALUE (log 8): the implementation's draw `nan_val(F, bits)` of R135, raw; the last argument is the NaN
pattern decoded, read as a natural number. -/
opaque Config.nanValDraw : Nat → FormatDescriptor → Nat → Bool × Nat

end Sys2Proof
end

