-- ==== Sys2Proof/WellFormed.lean ====
section
/-! DEFINITION. WellFormed.lean: the checks on what the block is given from outside. A command has no operand field, so
every command is well formed; what can be ill formed is a descriptor (R7, R25) and a build's parameters (R6). The check
on a caller's presentation, which needs the port type, is `Ports.presentable` in Machine/State.lean. -/

namespace Sys2Proof

/-- Every command of the table is well formed: it has no field that could be out of range (R60, R62). -/
def Instr.wf : Instr → Bool
  | .fmtinfoB32 => true
  | .fmtinfoB64 => true
  | .encodeB32 => true
  | .encodeB64 => true
  | .decodeB32 => true
  | .decodeB64 => true
  | .extractB32 => true
  | .extractB64 => true
  | .classifyB32 => true
  | .classifyB64 => true

/-- The descriptors the general functions are defined for (R7): at least one exponent bit and the two invariants of
R25. -/
abbrev FormatDescriptor.admitted (F : FormatDescriptor) : Prop :=
  1 ≤ F.exponentBits ∧ F.totalBits = 1 + F.exponentBits + F.fractionBits ∧ F.bias = 2 ^ (F.exponentBits - 1) - 1

/-- A list of character codes names a set in its one canonical form: strictly rising codes (log 18). -/
abbrev Text.rising (t : Text) : Prop := t.Pairwise (fun a b => a.toNat < b.toNat)

/-- The builds R6 allows: `MAXCH >= 66`, the space in `WS`, `'0'` and `'1'` not in it. -/
abbrev Params.wf (P : Params) : Prop :=
  66 ≤ P.maxch ∧ charSpace ∈ P.ws ∧ charZero ∉ P.ws ∧ charOne ∉ P.ws ∧ Text.rising P.ws

end Sys2Proof
end

