-- ==== Sys2Proof/Machine/State.lean ====
section
/-! DEFINITION. Machine/State.lean: the block's ports, parameters and outcomes as plain data. The spec gives the block
no state (R20): State is what stands on its ports (R28, R29), its build (R6), what its caller will present next (R22,
R187; log 6) and the count of NaN draws (log 8). -/

namespace Sys2Proof.Machine

/-- ValueCategory (glossary of 00_scope.md, R163). -/
inductive ValueCategory where
  | zero
  | subnormal
  | normal
  | infinity
  | nan
  deriving DecidableEq, Repr

/-- The four kinds of error (R171). -/
inductive ErrorKind where
  /-- DECODE and EXTRACT: the stripped text has the wrong length (R172). -/
  | lengthMismatch
  /-- DECODE and EXTRACT: a stripped text of the right length holds a character that is no bit (R173). -/
  | invalidCharacter
  /-- CLASSIFY.B32: an operand outside binary32's field ranges (R174). -/
  | operandRange
  /-- A reserved command word (R175). -/
  | illegalCommand
  deriving DecidableEq, Repr

/-- The outcome of one evaluation, a sum type as R31 asks: an error, or the result of exactly one kind. Ports that a
constructor does not name are unspecified and have no value. -/
inductive Result where
  /-- `ERR` is the code of this kind, as reported after folding (R173); every other port is unspecified (R177). -/
  | error (kind : ErrorKind)
  /-- FMTINFO: `FC_BIAS`, `FC_EXPBITS`, `FC_FRACBITS`, `FC_TOTALBITS` (R29, R100). -/
  | descriptor (bias : BitVec 10) (expBits : BitVec 4) (fracBits : BitVec 6) (totalBits : BitVec 7)
  /-- ENCODE: the valid characters of `TXT_OUT` and `TXT_OUT_LEN` (R29, R112). -/
  | text (chars : Text) (len : BitVec 7)
  /-- DECODE: `VAL_OUT` (R29, R130). -/
  | value (word : Word)
  /-- EXTRACT: `SIGN_OUT`, `EXP_OUT`, `FRAC_OUT` (R29, R150). -/
  | triple (sign : BitVec 1) (exponent : BitVec 11) (fraction : BitVec 52)
  /-- CLASSIFY: the category whose code is on `CAT_OUT` (R29, R162). -/
  | category (c : ValueCategory)
  deriving DecidableEq, Repr

/-- One presentation of the input ports (R28). `txtIn` is the whole port `TXT_IN`, of which only the first `txtInLen`
characters are read. -/
structure Ports where
  /-- `CMD`. -/
  cmd : CommandWord
  /-- `VAL_IN`. -/
  valIn : Word
  /-- `TXT_IN`, position 0 first. -/
  txtIn : Text
  /-- `TXT_IN_LEN`. -/
  txtInLen : Nat
  /-- `EXP_IN`. -/
  expIn : BitVec 11
  /-- `FRAC_IN`. -/
  fracIn : BitVec 52
  deriving DecidableEq, Repr

/-- What a caller can present to a build (R28, R197): the port has `MAXCH` characters and the length is at most
`MAXCH`. -/
abbrev Ports.presentable (P : Params) (p : Ports) : Prop := p.txtIn.length = P.maxch ∧ p.txtInLen ≤ P.maxch

/-- The machine: the block with its ports, and the caller's coming presentations. -/
structure State where
  /-- The build's OPEN parameters (R6, R34; log 1): no step writes them. -/
  params : Params
  /-- The inputs the caller holds now (R28). -/
  ports : Ports
  /-- The outcome on the output ports (R29, R31); `none` while every output is unspecified (R35, R195; log 4, log 5). -/
  out : Option Result
  /-- MODEL'S OWN (log 6): what the caller will present at the next steps, first one first. -/
  pending : List Ports
  /-- MODEL'S OWN (log 8): how many NaN draws have been made. -/
  draws : Nat
  deriving DecidableEq, Repr

/-- What stops the machine: nothing. "There is no fatal/process-level error class" (R170), an error "transfers control
nowhere" (R179) and the next evaluation is an ordinary one (R180), so no meaning and no step raises a fault (log 13). -/
inductive Fault where
  deriving DecidableEq, Repr

/-- Why the model gives no meaning. -/
inductive Refusal where
  /-- Raised by an arm of `exec` whose command has no meaning yet; safe. No arm raises it: every command is modelled. -/
  | notModelled (mnemonic : String)
  deriving DecidableEq, Repr

/-- The input ports at power-up, before the caller has driven them: every port 0 (log 3). -/
def Ports.undriven (P : Params) : Ports :=
  { cmd := 0#4, valIn := 0#64, txtIn := List.replicate P.maxch 0#8, txtInLen := 0, expIn := 0#11, fracIn := 0#52 }

/-- A build right after power-up (R35, R191): outputs unspecified, nothing coming, no draw made. -/
def State.powerUp (P : Params) : State :=
  { params := P, ports := Ports.undriven P, out := none, pending := [], draws := 0 }

/-- The machine right after reset: power-up of the spec's default build (R35, R190; log 2, log 3). -/
def State.reset : State := State.powerUp Params.standard

end Sys2Proof.Machine
end

