-- ==== Sys2Proof/Machine/Operands.lean ====
section
/-! DEFINITION. Machine/Operands.lean: the operand forms (R28, R62). A value operand is the word `Ports.valIn`; the
text operand is the first `TXT_IN_LEN` characters of `TXT_IN`; the field operands are `EXP_IN` and `FRAC_IN` as natural
numbers. -/

namespace Sys2Proof.Machine

/-- The raw text operand `TXT_IN[0 .. TXT_IN_LEN-1]` (R28, R63, R197). -/
def Ports.text (p : Ports) : Text := p.txtIn.take p.txtInLen

/-- The caller writes a text onto `TXT_IN` from position 0 and sets `TXT_IN_LEN` to its length (R197); the positions
above keep what they hold. -/
def Ports.withText (p : Ports) (t : Text) : Ports :=
  { p with txtIn := t ++ p.txtIn.drop t.length, txtInLen := t.length }

/-- `max = 2^exponentBits - 1`, the largest biased exponent (R24, R61 `emax`). -/
def maxExponent (F : FormatDescriptor) : Nat := 2 ^ F.exponentBits - 1

/-- Are the field operands in the FieldTriple ranges of a format (R160, R164)? -/
def Ports.fieldsInRange (F : FormatDescriptor) (p : Ports) : Bool :=
  p.expIn.toNat ≤ maxExponent F && p.fracIn.toNat ≤ 2 ^ F.fractionBits - 1

end Sys2Proof.Machine
end

