-- ==== Sys2Proof/Machine/Flags.lean ====
section
/-! DEFINITION. Machine/Flags.lean: the block has no flags (R23, R176): nothing records that a result is inexact,
overflowed or underflowed. What stands in their place is the error code on `ERR`, an output of the current evaluation
only (R171), and the category code on `CAT_OUT` (R162). -/

namespace Sys2Proof.Machine

/-- The code of an error kind on `ERR` (R171). -/
def ErrorKind.code : ErrorKind → BitVec 3
  | .lengthMismatch => 1#3
  | .invalidCharacter => 2#3
  | .operandRange => 3#3
  | .illegalCommand => 4#3

/-- The kind an error is reported as: with `ERRFOLD = folded`, InvalidCharacter is reported as LengthMismatch (R173). -/
def reportedKind : ErrFold → ErrorKind → ErrorKind
  | .folded, .invalidCharacter => .lengthMismatch
  | _, k => k

/-- `ERR`: the error's code, or 0 when the command succeeded (R170, R171). -/
def Result.errCode : Result → BitVec 3
  | .error k => k.code
  | .descriptor _ _ _ _ => 0#3
  | .text _ _ => 0#3
  | .value _ => 0#3
  | .triple _ _ _ => 0#3
  | .category _ => 0#3

/-- The code of a category on `CAT_OUT` (R162). -/
def ValueCategory.code : ValueCategory → BitVec 3
  | .zero => 0#3
  | .subnormal => 1#3
  | .normal => 2#3
  | .infinity => 3#3
  | .nan => 4#3

end Sys2Proof.Machine
end

