-- ==== Sys2Proof/Machine/Ops.lean ====
section
/-! DEFINITION. Machine/Ops.lean: the operations every command is made of: driving the output ports, raising an error,
counting a NaN draw, and the caller's next presentation. The block has no memory and no registers (R20, R40), so there
is no other read or write. -/

namespace Sys2Proof.Machine

/-- `PORT <- v` (R13): the evaluation's outcome stands on the output ports; nothing else changes (R20, R44). -/
def State.drive (r : Result) (s : State) : State := { s with out := some r }

/-- `raise <Error>` (R13): the ONE way an error is taken. `ERR` takes the code of the kind as reported, every other
output is unspecified (R177), and nothing is saved, masked or transferred (R179). There is no return from an error and
nothing to restore (R180): the next evaluation is an ordinary one. -/
def State.raise (k : ErrorKind) (s : State) : State := s.drive (.error (reportedKind s.params.errFold k))

/-- One more draw has been made, when `made` (log 8). -/
def State.countDraw (made : Bool) (s : State) : State :=
  { s with draws := if made then s.draws + 1 else s.draws }

/-- The caller presents new inputs (R5): until they are evaluated the outputs are unspecified (R195, R196). -/
def State.present (p : Ports) (s : State) : State := { s with ports := p, out := none }

/-- The caller's next presentation goes onto the input ports; a caller with nothing more to present holds what it
presented last (R22, R187, R195; log 6). -/
def State.presentNext (s : State) : State :=
  match s.pending with
  | [] => s
  | p :: ps => { s.present p with pending := ps }

/-- The command word presented: the block fetches nothing, `CMD` is an input port (R22, R51). -/
def State.commandWord (s : State) : CommandWord := s.ports.cmd

/-- The evaluation of a reserved command word (R63, R64, R175): IllegalCommand, before any operand is looked at. -/
def illegalCommand (s : State) : State := s.raise .illegalCommand

end Sys2Proof.Machine
end

