-- ==== Sys2Proof/Machine/Outputs.lean ====
section
/-! DEFINITION. Machine/Outputs.lean: the twelve output ports of R29, each read from the outcome on the ports. `none`
says that the port is unspecified: before an evaluation (R35), when the command does not drive it (R31), or on an error
(R177). -/

namespace Sys2Proof.Machine

/-- `ERR`, driven by every command (R29, R31). -/
def State.errPort (s : State) : Option (BitVec 3) := s.out.map Result.errCode

/-- The valid characters of `TXT_OUT` (R29, R112). -/
def State.txtOutPort (s : State) : Option Text :=
  match s.out with
  | some (.text cs _) => some cs
  | _ => none

/-- `TXT_OUT_LEN` (R29). -/
def State.txtOutLenPort (s : State) : Option (BitVec 7) :=
  match s.out with
  | some (.text _ n) => some n
  | _ => none

/-- `VAL_OUT` (R29). -/
def State.valOutPort (s : State) : Option Word :=
  match s.out with
  | some (.value w) => some w
  | _ => none

/-- `SIGN_OUT` (R29). -/
def State.signOutPort (s : State) : Option (BitVec 1) :=
  match s.out with
  | some (.triple b _ _) => some b
  | _ => none

/-- `EXP_OUT` (R29). -/
def State.expOutPort (s : State) : Option (BitVec 11) :=
  match s.out with
  | some (.triple _ e _) => some e
  | _ => none

/-- `FRAC_OUT` (R29). -/
def State.fracOutPort (s : State) : Option (BitVec 52) :=
  match s.out with
  | some (.triple _ _ f) => some f
  | _ => none

/-- `CAT_OUT` (R29, R162). -/
def State.catOutPort (s : State) : Option (BitVec 3) :=
  match s.out with
  | some (.category c) => some c.code
  | _ => none

/-- `FC_BIAS` (R29). -/
def State.fcBiasPort (s : State) : Option (BitVec 10) :=
  match s.out with
  | some (.descriptor b _ _ _) => some b
  | _ => none

/-- `FC_EXPBITS` (R29). -/
def State.fcExpBitsPort (s : State) : Option (BitVec 4) :=
  match s.out with
  | some (.descriptor _ e _ _) => some e
  | _ => none

/-- `FC_FRACBITS` (R29). -/
def State.fcFracBitsPort (s : State) : Option (BitVec 6) :=
  match s.out with
  | some (.descriptor _ _ f _) => some f
  | _ => none

/-- `FC_TOTALBITS` (R29). -/
def State.fcTotalBitsPort (s : State) : Option (BitVec 7) :=
  match s.out with
  | some (.descriptor _ _ _ n) => some n
  | _ => none

end Sys2Proof.Machine
end

