-- ==== Sys2Proof/Machine/Caller.lean ====
section
/-! DEFINITION. Machine/Caller.lean: what the caller does between two evaluations of a chain (R196): it copies a result
it has read onto the operand ports of the next command, and it changes `CMD`. A copy is `none` when the ports it would
read are unspecified, so it has to be made before `CMD` is changed. -/

namespace Sys2Proof.Machine

/-- Another command word onto `CMD`, the operands held: this "makes the first command's output ports unspecified" (R196;
log 5). -/
def State.changeCmd (c : CommandWord) (s : State) : State := s.present { s.ports with cmd := c }

/-- `VAL_OUT` onto `VAL_IN`: DECODE before ENCODE (R196). -/
def State.feedValue (s : State) : Option State :=
  s.valOutPort.map (fun w => s.present { s.ports with valIn := w })

/-- `TXT_OUT` onto `TXT_IN`, with its length: ENCODE before EXTRACT or DECODE (R196). -/
def State.feedText (s : State) : Option State :=
  s.txtOutPort.map (fun t => s.present (s.ports.withText t))

/-- `EXP_OUT` and `FRAC_OUT` onto `EXP_IN` and `FRAC_IN`: EXTRACT before CLASSIFY (R196). -/
def State.feedFields (s : State) : Option State :=
  match s.expOutPort, s.fracOutPort with
  | some e, some f => some (s.present { s.ports with expIn := e, fracIn := f })
  | _, _ => none

end Sys2Proof.Machine
end

