-- ==== Sys2Proof/Machine/Classifier.lean ====
section
/-! DEFINITION. Machine/Classifier.lean: the function `classify` (R163) and the meanings of CLASSIFY.B32 (R160) and
CLASSIFY.B64 (R161). -/

namespace Sys2Proof.Machine

/-- `classify(e, f, w)`, the five conditions in the spec's order (R163). The type of `e` says `0 <= e <= max`, so the
last condition is `e = max` and `f ≠ 0` (R164 allows the typed operand; log 19). -/
def classify (w : Nat) (e : BitVec w) (f : Nat) : ValueCategory :=
  if e.toNat = 0 ∧ f = 0 then .zero
  else if e.toNat = 0 then .subnormal
  else if e.toNat < 2 ^ w - 1 then .normal
  else if f = 0 then .infinity
  else .nan

/-- CLASSIFY.B32 (R160, R164): operands out of binary32's ranges raise OperandRange, and are neither truncated nor
classified; in range, the exponent is an 8-bit field. -/
def execClassifyB32 (s : State) : Host.Outcome State Fault Refusal :=
  if s.ports.fieldsInRange binary32 then
    .next (s.drive (.category (classify 8 (s.ports.expIn.setWidth 8) s.ports.fracIn.toNat)))
  else .next (s.raise .operandRange)

/-- CLASSIFY.B64 (R161): every 11-bit exponent and 52-bit fraction is in range. -/
def execClassifyB64 (s : State) : Host.Outcome State Fault Refusal :=
  .next (s.drive (.category (classify 11 s.ports.expIn s.ports.fracIn.toNat)))

end Sys2Proof.Machine
end

