-- ==== Sys2Proof/Machine/Numbers.lean ====
section
/-! DEFINITION. Machine/Numbers.lean: the exact arithmetic of the rules (R8): powers of two with an integer exponent,
`floor_log2`, `msb`, the rounding primitive `rne` (R12), and the number a most-significant-bit-first sequence of bits
spells (R41). -/

namespace Sys2Proof.Machine

/-- `2^k` for an integer `k`: a rational when `k` is negative (R8). -/
def pow2 : Int → ℚ
  | .ofNat n => ((2 ^ n : Nat) : ℚ)
  | .negSucc n => mkRat 1 (2 ^ (n + 1))

/-- `floor_log2(a)`: for `a > 0` the integer `k` with `2^k <= a < 2^(k+1)` (R8). The difference of the two binary
logarithms of numerator and denominator is that `k` or one more. -/
def floorLog2 (a : ℚ) : Int :=
  let k : Int := (a.num.toNat.log2 : Int) - (a.den.log2 : Int)
  if pow2 k ≤ a then k else k - 1

/-- `rne(x)`: for `x >= 0` the natural number nearest to `x`, the even one of two when `x` is halfway (R12). -/
def rne (x : ℚ) : Nat :=
  let q := x.floor.toNat
  let r := x - (q : ℚ)
  if 1 / 2 < r ∨ (r = 1 / 2 ∧ q % 2 = 1) then q + 1 else q

/-- `msb(n) = floor_log2(n)` for `n >= 1` (R8). -/
def msb (n : Nat) : Nat := n.log2

/-- `rsh_rne(M, k) = rne(M / 2^k)` for `k >= 1`, in integers (R119). -/
def rshRne (M k : Nat) : Nat :=
  let q := M / 2 ^ k
  let r := M % 2 ^ k
  let h := 2 ^ (k - 1)
  if h < r ∨ (r = h ∧ q % 2 = 1) then q + 1 else q

/-- The unsigned number a sequence of bits spells, most significant bit first (R41, R152). -/
def msbFirst : List Bool → Nat
  | [] => 0
  | b :: bs => b.toNat * 2 ^ bs.length + msbFirst bs

end Sys2Proof.Machine
end

