-- ==== Sys2Proof/Machine/Text.lean ====
section
/-! DEFINITION. Machine/Text.lean: the text format of a bit sequence: `strip` (R67), `parse` (R68), `render` (R69). -/

namespace Sys2Proof.Machine

/-- Is the character in `WS` (R6, R67)? -/
def isWhitespace (P : Params) (c : CharCode) : Bool := P.ws.contains c

/-- `strip(t)`: the characters of `t` that are not in `WS`, in their order, wherever they stand (R67, C2). -/
def strip (P : Params) (t : Text) : Text := t.filter (fun c => !isWhitespace P c)

/-- Is the character `'0'` or `'1'` (R65, R66)? -/
def isBit (c : CharCode) : Bool := c == charZero || c == charOne

/-- The bit a character of a bit sequence carries (R41). -/
def charBit (c : CharCode) : Bool := c == charOne

/-- The character of a bit (R41). -/
def bitChar (b : Bool) : CharCode := if b then charOne else charZero

/-- The `N`-bit pattern of a text of `N` bits: bit `N-1-k` is 1 exactly when the character at position `k` is `'1'`
(R41, R68). -/
def patternOf (F : FormatDescriptor) (u : Text) : BitVec F.totalBits :=
  BitVec.ofNat F.totalBits (msbFirst (u.map charBit))

/-- `parse(F, t)`: strip, then length, then content (R68, R178; C1, C3, D8). -/
def parse (P : Params) (F : FormatDescriptor) (t : Text) : Except ErrorKind (BitVec F.totalBits) :=
  let u := strip P t
  if u.length ≠ F.totalBits then .error .lengthMismatch
  else if u.all isBit then .ok (patternOf F u)
  else .error .invalidCharacter

/-- `render(F, bv)`: the character at position `k` is that of bit `N-1-k` (R69). -/
def render (F : FormatDescriptor) (bv : BitVec F.totalBits) : Text :=
  (List.range F.totalBits).map (fun k => bitChar (bv.getLsbD (F.totalBits - 1 - k)))

end Sys2Proof.Machine
end

