-- ==== Sys2Proof/Machine/Fields.lean ====
section
/-! DEFINITION. Machine/Fields.lean: the field layout of a pattern (R70), its decomposition `fields` and assembly `pack`
(R71), for any descriptor (R7). -/

namespace Sys2Proof.Machine

/-- FieldTriple (glossary of 00_scope.md): sign, biased exponent and fraction. The widths keep each in its range
(R153); a set sign is negative. -/
structure FieldTriple (F : FormatDescriptor) where
  sign : Bool
  exponent : BitVec F.exponentBits
  fraction : BitVec F.fractionBits
  deriving DecidableEq, Repr

/-- `fields(F, bv)`: sign bit `N-1`, exponent bits `N-2 .. p`, fraction bits `p-1 .. 0`, each unsigned (R70, R71). -/
def fields (F : FormatDescriptor) (bv : BitVec F.totalBits) : FieldTriple F where
  sign := bv.getLsbD (F.totalBits - 1)
  exponent := bv.extractLsb' F.fractionBits F.exponentBits
  fraction := bv.extractLsb' 0 F.fractionBits

/-- `pack(F, s, e, f) = bv_1(s) ++ bv_w(e) ++ bv_p(f)`, for `e <= emax` and `f <= 2^p - 1` (R71). The width of the
concatenation is `totalBits` for every admitted descriptor, where `setWidth` changes nothing. -/
def pack (F : FormatDescriptor) (s : Bool) (e f : Nat) : BitVec F.totalBits :=
  (BitVec.ofBool s ++ BitVec.ofNat F.exponentBits e ++ BitVec.ofNat F.fractionBits f).setWidth F.totalBits

/-- The NaN pattern of a raw draw: any sign, exponent field all ones, and a fraction in `1 .. 2^p - 1`, each of them
for some draw (R116, R135; log 9). -/
def nanPattern (F : FormatDescriptor) (draw : Bool × Nat) : BitVec F.totalBits :=
  pack F draw.1 (maxExponent F) (1 + draw.2 % (2 ^ F.fractionBits - 1))

end Sys2Proof.Machine
end

