-- ==== Sys2Proof/Machine/Value.lean ====
section
/-! DEFINITION. Machine/Value.lean: the abstract value domain `Val` (R11) and the value `val(F, bv)` a pattern denotes
(R131), in exact rational arithmetic. -/

namespace Sys2Proof.Machine

/-- `Val` (R11). A set sign is negative. `fin s a` is the number `(-1)^s * a`, for `a > 0`. NaN has neither sign nor
payload. Equality is that of the constructors, so the two zeros differ. -/
inductive Val where
  | zero (s : Bool)
  | fin (s : Bool) (a : ℚ)
  | inf (s : Bool)
  | nan
  deriving DecidableEq, Repr

/-- Is it `NaN`? -/
def Val.isNan : Val → Bool
  | .zero _ => false
  | .fin _ _ => false
  | .inf _ => false
  | .nan => true

/-- The sign of a value that has one (R11, R123). -/
def Val.signBit : Val → Option Bool
  | .zero s => some s
  | .fin s _ => some s
  | .inf s => some s
  | .nan => none

/-- The magnitude of a value that is a number: 0 for the zeros (R11). -/
def Val.magnitude : Val → Option ℚ
  | .zero _ => some 0
  | .fin _ a => some a
  | .inf _ => none
  | .nan => none

/-- The magnitude of a subnormal, `(f / 2^p) * 2^(1 - B)`: implicit leading 0, true exponent `1 - B` (R131). -/
def subnormalMagnitude (F : FormatDescriptor) (f : Nat) : ℚ :=
  ((f : ℚ) / pow2 F.fractionBits) * pow2 (1 - F.bias)

/-- The magnitude of a normal, `(1 + f / 2^p) * 2^(e - B)`: implicit leading 1, true exponent `e - B` (R131). -/
def normalMagnitude (F : FormatDescriptor) (e f : Nat) : ℚ :=
  (1 + (f : ℚ) / pow2 F.fractionBits) * pow2 ((e : Int) - F.bias)

/-- `val(F, bv)`, by the category of the pattern's fields (R131). -/
def val (F : FormatDescriptor) (bv : BitVec F.totalBits) : Val :=
  let t := fields F bv
  match classify F.exponentBits t.exponent t.fraction.toNat with
  | .zero => .zero t.sign
  | .subnormal => .fin t.sign (subnormalMagnitude F t.fraction.toNat)
  | .normal => .fin t.sign (normalMagnitude F t.exponent.toNat t.fraction.toNat)
  | .infinity => .inf t.sign
  | .nan => .nan

end Sys2Proof.Machine
end

