-- ==== Sys2Proof/Machine/Encoder.lean ====
section
/-! DEFINITION. Machine/Encoder.lean: the function `enc_bits` (R113 to R117) and the meanings of ENCODE.B32 (R110) and
ENCODE.B64 (R111). -/

namespace Sys2Proof.Machine

/-- `emin = 1 - B`, the true exponent of subnormals and of the smallest normals (R117). -/
def minExponent (F : FormatDescriptor) : Int := 1 - F.bias

/-- `E`, the true exponent at which a magnitude is represented before rounding (R117). -/
def workExponent (F : FormatDescriptor) (a : ℚ) : Int := max (floorLog2 a) (minExponent F)

/-- `n`, the magnitude in units of the quantum `2^(E-p)`, rounded to nearest, ties to even (R117). -/
def roundedUnits (F : FormatDescriptor) (a : ℚ) : Nat :=
  rne (a / pow2 (workExponent F a - F.fractionBits))

/-- `ef = (E - emin) * 2^p + n`, the exponent and fraction fields as one natural number; a rounding carry runs into the
exponent by itself (R117). -/
def fieldNumber (F : FormatDescriptor) (a : ℚ) : Nat :=
  (workExponent F a - minExponent F).toNat * 2 ^ F.fractionBits + roundedUnits F a

/-- `enc_bits(F, Fin(s, a))` (R117): infinity of the same sign when the rounded result would need an exponent field of
`emax` or more (D12). -/
def encFinite (F : FormatDescriptor) (s : Bool) (a : ℚ) : BitVec F.totalBits :=
  let ef := fieldNumber F a
  if maxExponent F * 2 ^ F.fractionBits ≤ ef then pack F s (maxExponent F) 0
  else pack F s (ef / 2 ^ F.fractionBits) (ef % 2 ^ F.fractionBits)

/-- `enc_bits(F, v)`: zero by R114, infinity by R115, NaN by R116 with the draw given, finite by R117 (R113). -/
def encBits (F : FormatDescriptor) (draw : Bool × Nat) : Val → BitVec F.totalBits
  | .zero s => pack F s 0 0
  | .fin s a => encFinite F s a
  | .inf s => pack F s (maxExponent F) 0
  | .nan => nanPattern F draw

/-- ENCODE to a format: the value of the word on `VAL_IN`, its pattern, the pattern as text; no error (R110, R111,
R112). A NaN uses a draw. -/
def encodeTo (F : FormatDescriptor) (s : State) : State :=
  let v := val binary64 s.ports.valIn
  let bv := encBits F (Config.nanEncDraw s.draws F s.ports.valIn) v
  (s.countDraw v.isNan).drive (.text (render F bv) (BitVec.ofNat 7 F.totalBits))

/-- ENCODE.B32 (R110). -/
def execEncodeB32 (s : State) : Host.Outcome State Fault Refusal := .next (encodeTo binary32 s)

/-- ENCODE.B64 (R111). -/
def execEncodeB64 (s : State) : Host.Outcome State Fault Refusal := .next (encodeTo binary64 s)

end Sys2Proof.Machine
end

