-- ==== Sys2Proof/Machine/Decoder.lean ====
section
/-! DEFINITION. Machine/Decoder.lean: the meanings of DECODE.B32 (R130) and DECODE.B64 (R136). The value a pattern
denotes is `val` (R131). -/

namespace Sys2Proof.Machine

/-- DECODE drives a decoded pattern (R130, R135, R136): a NaN gives a drawn NaN word, any other value the word given
for it. -/
def driveDecoded (F : FormatDescriptor) (bv : BitVec F.totalBits) (word : Word) (s : State) : State :=
  if (val F bv).isNan then
    (s.countDraw true).drive (.value (nanPattern binary64 (Config.nanValDraw s.draws F bv.toNat)))
  else s.drive (.value word)

/-- DECODE.B32 (R130): a value that is not NaN is driven as `enc_bits(Binary64, v)`; the draw given to it is not used. -/
def execDecodeB32 (s : State) : Host.Outcome State Fault Refusal :=
  match parse s.params binary32 s.ports.text with
  | .error k => .next (s.raise k)
  | .ok bv => .next (driveDecoded binary32 bv (encBits binary64 (false, 0) (val binary32 bv)) s)

/-- DECODE.B64 (R136): a value that is not NaN is driven as the pattern itself. -/
def execDecodeB64 (s : State) : Host.Outcome State Fault Refusal :=
  match parse s.params binary64 s.ports.text with
  | .error k => .next (s.raise k)
  | .ok bv => .next (driveDecoded binary64 bv bv s)

end Sys2Proof.Machine
end

