-- ==== Sys2Proof/Machine/FieldExtractor.lean ====
section
/-! DEFINITION. Machine/FieldExtractor.lean: the meanings of EXTRACT.B32 (R150) and EXTRACT.B64 (R151). -/

namespace Sys2Proof.Machine

/-- A field triple on the ports, exponent and fraction widened with zeros (R29, R47, R150). -/
def tripleResult (F : FormatDescriptor) (t : FieldTriple F) : Result :=
  .triple (BitVec.ofBool t.sign) (t.exponent.setWidth 11) (t.fraction.setWidth 52)

/-- EXTRACT (R150, R151, R154): parse, then split by position; no check on what the fields mean. -/
def extractFields (F : FormatDescriptor) (s : State) : State :=
  match parse s.params F s.ports.text with
  | .error k => s.raise k
  | .ok bv => s.drive (tripleResult F (fields F bv))

/-- EXTRACT.B32 (R150). -/
def execExtractB32 (s : State) : Host.Outcome State Fault Refusal := .next (extractFields binary32 s)

/-- EXTRACT.B64 (R151). -/
def execExtractB64 (s : State) : Host.Outcome State Fault Refusal := .next (extractFields binary64 s)

end Sys2Proof.Machine
end

