-- ==== Sys2Proof/Machine/FormatCatalog.lean ====
section
/-! DEFINITION. Machine/FormatCatalog.lean: the meanings of FMTINFO.B32 (R100) and FMTINFO.B64 (R101), which read out the
Format Catalog's constants (R24, R26). -/

namespace Sys2Proof.Machine

/-- A descriptor on the `FC_*` ports, at the ports' widths (R29, R102). -/
def describe (F : FormatDescriptor) : Result :=
  .descriptor (BitVec.ofNat 10 F.bias) (BitVec.ofNat 4 F.exponentBits) (BitVec.ofNat 6 F.fractionBits)
    (BitVec.ofNat 7 F.totalBits)

/-- FMTINFO.B32 (R100). -/
def execFmtinfoB32 (s : State) : Host.Outcome State Fault Refusal := .next (s.drive (describe binary32))

/-- FMTINFO.B64 (R101). -/
def execFmtinfoB64 (s : State) : Host.Outcome State Fault Refusal := .next (s.drive (describe binary64))

end Sys2Proof.Machine
end

