-- ==== Sys2Proof/Machine/Dispatch.lean ====
section
/-! DEFINITION. Machine/Dispatch.lean: which meaning a command has (R62, R63). -/

namespace Sys2Proof.Machine

def exec (i : Instr) (s : State) : Host.Outcome State Fault Refusal :=
  match i with
  | .fmtinfoB32 => Sys2Proof.Machine.execFmtinfoB32 s
  | .fmtinfoB64 => Sys2Proof.Machine.execFmtinfoB64 s
  | .encodeB32 => Sys2Proof.Machine.execEncodeB32 s
  | .encodeB64 => Sys2Proof.Machine.execEncodeB64 s
  | .decodeB32 => Sys2Proof.Machine.execDecodeB32 s
  | .decodeB64 => Sys2Proof.Machine.execDecodeB64 s
  | .extractB32 => Sys2Proof.Machine.execExtractB32 s
  | .extractB64 => Sys2Proof.Machine.execExtractB64 s
  | .classifyB32 => Sys2Proof.Machine.execClassifyB32 s
  | .classifyB64 => Sys2Proof.Machine.execClassifyB64 s

end Sys2Proof.Machine
end

