-- ==== Sys2Proof/Machine/Step.lean ====
section
/-! DEFINITION. Machine/Step.lean: one step is one evaluation (R63): the caller's next presentation goes onto the input
ports, the command word on `CMD` is decoded, and its command is evaluated; a reserved word is IllegalCommand (R64). -/

namespace Sys2Proof.Machine

/-- One evaluation (R63; log 6). -/
def step (s : State) : Host.Outcome State Fault Refusal :=
  match decode s.presentNext.commandWord with
  | .ok i => exec i s.presentNext
  | .error _ => .next (illegalCommand s.presentNext)

/-- The state whose next evaluation is of the command word `w`: the word stands on `CMD` in the caller's next
presentation, or, where none is pending, the caller changes the port itself, which leaves the outputs of the command
before unspecified (R196; log 7). Every operand stays as it is. -/
def State.withFetchWord (s : State) (_nbits w : Nat) : State :=
  match s.pending with
  | [] => s.changeCmd (BitVec.ofNat 4 w)
  | p :: ps => { s with pending := { p with cmd := BitVec.ofNat 4 w } :: ps }

end Sys2Proof.Machine
end

