-- ==== Sys2Proof/Machine/Algorithms.lean ====
section
/-! DEFINITION. Machine/Algorithms.lean: the spec's two bit-level integer algorithms, `narrow` (R119) and `widen` (R134).
No meaning calls them: the commands follow the value rules R117 and R131, and that the algorithms agree with them is
stated as obligations. -/

namespace Sys2Proof.Machine

/-- `narrow(W)` (R119): the binary32 pattern of a binary64 word that is not a NaN word. -/
def narrow (W : BitVec 64) : BitVec 32 :=
  let t := fields binary64 W
  let s := t.sign
  let e := t.exponent.toNat
  let f := t.fraction.toNat
  if e = 2047 then pack binary32 s 255 0
  else if e = 0 then pack binary32 s 0 0
  else
    let M := 2 ^ 52 + f
    let T : Int := (e : Int) - 1023
    let ef :=
      if -126 ≤ T then (T + 126).toNat * 2 ^ 23 + rshRne M 29
      else
        let k := (-T - 97).toNat
        if 54 < k then 0 else rshRne M k
    if 255 * 2 ^ 23 ≤ ef then pack binary32 s 255 0
    else pack binary32 s (ef / 2 ^ 23) (ef % 2 ^ 23)

/-- `widen(bv)` (R134): the binary64 word of a binary32 pattern that is not a NaN pattern. -/
def widen (bv : BitVec 32) : BitVec 64 :=
  let t := fields binary32 bv
  let s := t.sign
  let e := t.exponent.toNat
  let f := t.fraction.toNat
  if e = 255 then pack binary64 s 2047 0
  else if e = 0 ∧ f = 0 then pack binary64 s 0 0
  else if e = 0 then
    let k := msb f
    pack binary64 s (k + 874) ((f - 2 ^ k) * 2 ^ (52 - k))
  else pack binary64 s (e + 896) (f * 2 ^ 29)

end Sys2Proof.Machine
end

