-- ==== Sys2Proof/Safety.lean ====
section
/-! DEFINITION. Safety.lean: what claims call a good state, a legal outcome, a reachable state and a safe run. A safe run
is one that never stops (R170, R180); errors are outcomes of an evaluation and no harm to a run. -/

namespace Sys2Proof.Machine

/-- A text result R112 allows: exactly 32 or 64 characters, each `'0'` or `'1'`, with its length beside it. -/
abbrev legalText (cs : Text) (len : BitVec 7) : Prop :=
  (len = 32#7 ∨ len = 64#7) ∧ cs.length = len.toNat ∧ cs.all isBit = true

/-- The outcomes an evaluation of a build can leave: code 2 is never driven when errors are folded (R173), a descriptor
is one of the two of the catalog (R24, R103), a text is a bit sequence of a format's length (R112). Words, field triples
and categories are in range by their types (R153, R162). -/
abbrev Result.legal (P : Params) : Result → Prop
  | .error k => P.errFold = .folded → k ≠ .invalidCharacter
  | .descriptor b e f n => Result.descriptor b e f n = describe binary32 ∨ Result.descriptor b e f n = describe binary64
  | .text cs len => legalText cs len
  | .value _ => True
  | .triple _ _ _ => True
  | .category _ => True

/-- The outcome on the ports, if there is one, is legal. -/
abbrev State.outLegal (s : State) : Prop := ∀ r ∈ s.out, r.legal s.params

/-- The invariant of the machine: the build is one R6 allows, every presentation made or coming can be presented (R28,
R197), and the outcome on the ports is a legal one. -/
structure State.Inv (s : State) : Prop where
  params : s.params.wf
  ports : s.ports.presentable s.params
  pending : ∀ p ∈ s.pending, p.presentable s.params
  out : s.outLegal

/-- The states of a build `P` from power-up on: evaluations, new presentations by the caller, and what the caller lines
up for later (R5, R187). -/
inductive Reachable (P : Params) : State → Prop where
  | powerUp : Reachable P (State.powerUp P)
  | present {s : State} (p : Ports) : Reachable P s → p.presentable P → Reachable P (s.present p)
  | lineUp {s : State} (ps : List Ports) : Reachable P s → (∀ p ∈ ps, p.presentable P) →
      Reachable P { s with pending := ps }
  | step {s t : State} : Reachable P s → Machine.step s = .next t → Reachable P t

/-- A run of any number of steps ends in a next state: nothing stops the block (R170, R181). -/
def NeverStops (s : State) : Prop := ∀ k : Nat, ∃ t, Sys2Proof.core.run k s = Host.Outcome.next t

/-- The evaluation succeeded: `ERR = 0` (R170). -/
def State.succeeded (s : State) : Prop := s.errPort = some 0#3

/-- The evaluation ended in the error of code `c` and drives nothing else (R170, R177). -/
def State.failedWith (c : BitVec 3) (s : State) : Prop :=
  s.errPort = some c ∧ c ≠ 0#3 ∧ s.txtOutPort = none ∧ s.txtOutLenPort = none ∧ s.valOutPort = none ∧
  s.signOutPort = none ∧ s.expOutPort = none ∧ s.fracOutPort = none ∧ s.catOutPort = none ∧
  s.fcBiasPort = none ∧ s.fcExpBitsPort = none ∧ s.fcFracBitsPort = none ∧ s.fcTotalBitsPort = none

/-- Two states that may differ in nothing but the outcome on the ports and the count of draws: what an evaluation leaves
alone (R20, R34, R44). -/
def SameBlock (s t : State) : Prop := t.params = s.params ∧ t.ports = s.ports ∧ t.pending = s.pending

end Sys2Proof.Machine
end

