-- ==== Sys2Proof/Certificates/Slice0/Obligations.lean ====
section
/-! DEFINITION. Certificates/Slice0/Obligations.lean: the statements for the provers. Powers of two with an integer
exponent are written `(2 : ℚ) ^ k`. A free value (a NaN draw) is always quantified over or left as it comes. -/

namespace Sys2Proof.Claims

open Sys2Proof Sys2Proof.Machine

/-- The commands of a unit with the format `fmt` selects for each (R61, R62). -/
abbrev encodeCommands : List (Instr × FormatDescriptor) := [(.encodeB32, binary32), (.encodeB64, binary64)]
abbrev decodeCommands : List (Instr × FormatDescriptor) := [(.decodeB32, binary32), (.decodeB64, binary64)]
abbrev extractCommands : List (Instr × FormatDescriptor) := [(.extractB32, binary32), (.extractB64, binary64)]

/-- The four commands that read a text (R62). -/
abbrev textCommands : List (Instr × FormatDescriptor) := decodeCommands ++ extractCommands

/-- Commands of three units for one format (R155, R166). -/
structure UnitsOf where
  encode : Instr
  decode : Instr
  extract : Instr
  classify : Instr
  format : FormatDescriptor

abbrev formats : List UnitsOf :=
  [{ encode := .encodeB32, decode := .decodeB32, extract := .extractB32, classify := .classifyB32, format := binary32 },
   { encode := .encodeB64, decode := .decodeB64, extract := .extractB64, classify := .classifyB64, format := binary64 }]

/-- An evaluation that succeeds with a next state and leaves everything but the outcome on the ports as it was: build,
inputs, what is coming, and the count of draws. -/
def Succeeds (i : Instr) (s : State) (post : State → Prop) : Prop :=
  ∃ t, exec i s = .next t ∧ t.succeeded ∧ SameBlock s t ∧ t.draws = s.draws ∧ post t

/-- The same for an evaluation that makes one NaN draw. -/
def SucceedsDrawing (i : Instr) (s : State) (post : State → Prop) : Prop :=
  ∃ t, exec i s = .next t ∧ t.succeeded ∧ SameBlock s t ∧ t.draws = s.draws + 1 ∧ post t

/-- An evaluation that ends in the error of a code and leaves everything else as it was (R177, R179). -/
def FailsWith (c : BitVec 3) (i : Instr) (s : State) : Prop :=
  ∃ t, exec i s = .next t ∧ t.failedWith c ∧ SameBlock s t ∧ t.draws = s.draws

/-- Is the word a NaN word: exponent field 2047, fraction field nonzero (R76)? -/
abbrev isNanWord (w : Word) : Prop := w.extractLsb' 52 11 = 2047#11 ∧ w.extractLsb' 0 52 ≠ 0#52

/-- Does the evaluation of a command make a NaN draw (R116, R135)? -/
def makesDraw (i : Instr) (s : State) : Prop :=
  match i with
  | .encodeB32 => isNanWord s.ports.valIn
  | .encodeB64 => isNanWord s.ports.valIn
  | .decodeB32 => ∃ bv, parse s.params binary32 s.ports.text = .ok bv ∧ val binary32 bv = .nan
  | .decodeB64 => ∃ bv, parse s.params binary64 s.ports.text = .ok bv ∧ val binary64 bv = .nan
  | .fmtinfoB32 => False
  | .fmtinfoB64 => False
  | .extractB32 => False
  | .extractB64 => False
  | .classifyB32 => False
  | .classifyB64 => False

/-- Which result ports have a value, in the order of R29: `TXT_OUT`, `TXT_OUT_LEN`, `VAL_OUT`, `SIGN_OUT`, `EXP_OUT`,
`FRAC_OUT`, `CAT_OUT`, `FC_BIAS`, `FC_EXPBITS`, `FC_FRACBITS`, `FC_TOTALBITS`. -/
def portsDriven (t : State) : List Bool :=
  [t.txtOutPort.isSome, t.txtOutLenPort.isSome, t.valOutPort.isSome, t.signOutPort.isSome, t.expOutPort.isSome,
   t.fracOutPort.isSome, t.catOutPort.isSome, t.fcBiasPort.isSome, t.fcExpBitsPort.isSome, t.fcFracBitsPort.isSome,
   t.fcTotalBitsPort.isSome]

/-- The "results driven" column of R62. -/
def rowOf : Instr → List Bool
  | .fmtinfoB32 => [false, false, false, false, false, false, false, true, true, true, true]
  | .fmtinfoB64 => [false, false, false, false, false, false, false, true, true, true, true]
  | .encodeB32 => [true, true, false, false, false, false, false, false, false, false, false]
  | .encodeB64 => [true, true, false, false, false, false, false, false, false, false, false]
  | .decodeB32 => [false, false, true, false, false, false, false, false, false, false, false]
  | .decodeB64 => [false, false, true, false, false, false, false, false, false, false, false]
  | .extractB32 => [false, false, false, true, true, true, false, false, false, false, false]
  | .extractB64 => [false, false, false, true, true, true, false, false, false, false, false]
  | .classifyB32 => [false, false, false, false, false, false, true, false, false, false, false]
  | .classifyB64 => [false, false, false, false, false, false, true, false, false, false, false]

/-- The codes a command can raise (R176). -/
def codesRaised : Instr → List (BitVec 3)
  | .fmtinfoB32 => []
  | .fmtinfoB64 => []
  | .encodeB32 => []
  | .encodeB64 => []
  | .decodeB32 => [1#3, 2#3]
  | .decodeB64 => [1#3, 2#3]
  | .extractB32 => [1#3, 2#3]
  | .extractB64 => [1#3, 2#3]
  | .classifyB32 => [3#3]
  | .classifyB64 => []

/-- Two presentations agree on every port the command reads (R28). A text command reads the first `TXT_IN_LEN`
characters of `TXT_IN` and no other. -/
def agreeOnRead (i : Instr) (p q : Ports) : Prop :=
  match i with
  | .fmtinfoB32 => True
  | .fmtinfoB64 => True
  | .encodeB32 => p.valIn = q.valIn
  | .encodeB64 => p.valIn = q.valIn
  | .decodeB32 => p.txtIn.take p.txtInLen = q.txtIn.take q.txtInLen
  | .decodeB64 => p.txtIn.take p.txtInLen = q.txtIn.take q.txtInLen
  | .extractB32 => p.txtIn.take p.txtInLen = q.txtIn.take q.txtInLen
  | .extractB64 => p.txtIn.take p.txtInLen = q.txtIn.take q.txtInLen
  | .classifyB32 => p.expIn = q.expIn ∧ p.fracIn = q.fracIn
  | .classifyB64 => p.expIn = q.expIn ∧ p.fracIn = q.fracIn

/-- Two evaluations answer next states with the same outcome on the ports and as many draws made. -/
def SameOutcome (i : Instr) (s s' : State) : Prop :=
  ∃ t t', exec i s = .next t ∧ exec i s' = .next t' ∧ t.out = t'.out ∧ t.draws = t'.draws

/-- The category code the five conditions of R163 give to an exponent `e` (with `0 <= e <= max` and `max >= 1`) and a
fraction `f`. -/
def HasCategory (max e f : Nat) (code : BitVec 3) : Prop :=
  (e = 0 ∧ f = 0 → code = 0#3) ∧ (e = 0 ∧ f ≠ 0 → code = 1#3) ∧ (0 < e ∧ e < max → code = 2#3) ∧
  (e = max ∧ f = 0 → code = 3#3) ∧ (e = max ∧ f ≠ 0 → code = 4#3)

/-- The text of a word's bits, most significant first: as many characters as bits, position `k` is bit `n-1-k` (R41). -/
def SpellsBits {n : Nat} (t : Text) (w : BitVec n) : Prop :=
  t.length = n ∧ ∀ k, k < n → t[k]? = some (if w.getLsbD (n - 1 - k) then charOne else charZero)

end Sys2Proof.Claims

open Sys2Proof Sys2Proof.Machine Sys2Proof.Claims

/-! ### Reset, command words, the step -/

/-- R35: at power-up nothing but the parameters is fixed: every output port is unspecified, and the machine's invariant
holds, for every build R6 allows. The values on the input ports (log 3) and the default build (log 2) are the model's. -/
def Obligations.PowerUpMeetsTheInvariant : Prop :=
  State.Inv State.reset ∧
  ∀ P : Params, P.wf → State.Inv (State.powerUp P) ∧ (State.powerUp P).params = P ∧
    (State.powerUp P).errPort = none ∧ portsDriven (State.powerUp P) = List.replicate 11 false

/-- R62, R64: words of every unit, written out bit by bit, decode to their commands, and the first and last reserved
words are rejected by name. -/
def Obligations.TableWordsDecodeToTheirCommands : Prop :=
  decode 0b0000#4 = .ok .fmtinfoB32 ∧ decode 0b0011#4 = .ok .encodeB64 ∧ decode 0b0100#4 = .ok .decodeB32 ∧
  decode 0b0111#4 = .ok .extractB64 ∧ decode 0b1000#4 = .ok .classifyB32 ∧ decode 0b1001#4 = .ok .classifyB64 ∧
  decode 0b1010#4 = .error (.reservedOperation 5#3 0#1) ∧ decode 0b1111#4 = .error (.reservedOperation 7#3 1#1)

/-- R60 to R64: decoding an encoded command gives it back, each command has one word, and every word above 0x9 is
rejected with its own `op` and `fmt`. -/
def Obligations.DecodeAndEncodeAgree : Prop :=
  (∀ i : Instr, i.wf = true → decode (encode i) = .ok i) ∧
  (∀ (w : CommandWord) (i : Instr), decode w = .ok i → encode i = w) ∧
  (∀ w : CommandWord, 9 < w.toNat → decode w = .error (.reservedOperation (w.extractLsb' 1 3) (w.extractLsb' 0 1)))

/-- R22, R63: a step puts the caller's next presentation on the input ports (or holds the last) and evaluates the
command whose word then stands on `CMD`. That a list of presentations is in the state is the model's (log 6). -/
def Obligations.StepEvaluatesThePresentedCommand : Prop :=
  (∀ (s : State) (i : Instr), decode s.presentNext.ports.cmd = .ok i → step s = exec i s.presentNext) ∧
  (∀ s : State, s.pending = [] → s.presentNext = s) ∧
  (∀ (s : State) (p : Ports) (ps : List Ports), s.pending = p :: ps →
    s.presentNext = { s with ports := p, out := none, pending := ps })

/-- R175, R64: a word whose `op` is 5, 6 or 7 raises IllegalCommand, code 4, whatever the operand ports hold; no result is
driven and nothing else changes. -/
def Obligations.ReservedWordRaisesIllegalCommand : Prop :=
  ∀ s : State,
    (s.presentNext.ports.cmd.extractLsb' 1 3 = 5#3 ∨ s.presentNext.ports.cmd.extractLsb' 1 3 = 6#3 ∨
      s.presentNext.ports.cmd.extractLsb' 1 3 = 7#3) →
    ∃ t, step s = .next t ∧ t.failedWith 4#3 ∧ SameBlock s.presentNext t ∧ t.draws = s.draws

/-! ### Rules of the whole machine -/

/-- The invariant (a build R6 allows, presentable inputs, legal outcome) is kept by every step, from every state that
meets it. -/
def Obligations.StepKeepsTheInvariant : Prop :=
  ∀ s t : State, s.Inv → step s = .next t → t.Inv

/-- R170, R181: in every build, every state that evaluations and the caller's presentations can reach from power-up meets
the invariant, is still that build (R34), and runs on for any number of steps. -/
def Obligations.ReachableStatesRunOn : Prop :=
  ∀ (P : Params) (s : State), P.wf → Reachable P s → s.Inv ∧ s.params = P ∧ NeverStops s

/-- R20, R34, R44: the frame of a step: build and inputs stay, what is coming is what was coming after this
presentation, at most one draw is made, and there is an outcome on the ports. -/
def Obligations.StepFrame : Prop :=
  ∀ s t : State, step s = .next t →
    t.params = s.params ∧ t.ports = s.presentNext.ports ∧ t.pending = s.presentNext.pending ∧
    (t.draws = s.draws ∨ t.draws = s.draws + 1) ∧ t.errPort.isSome = true

/-- R20, R23, R116, R135: the frame of each of the ten commands, from every state: it completes, it leaves build, inputs
and coming presentations alone, and it counts a draw exactly when its value is NaN. -/
def Obligations.EveryCommandCompletesWithItsFrame : Prop :=
  ∀ (i : Instr) (s : State), ∃ t, exec i s = .next t ∧ SameBlock s t ∧
    (makesDraw i s → t.draws = s.draws + 1) ∧ (¬ makesDraw i s → t.draws = s.draws)

/-- R170, R176: an evaluation ends in exactly one of two ways: success, with exactly the ports of its row of R62 driven,
or one of the errors its command can raise, with no result port driven. -/
def Obligations.EachCommandDrivesItsRowOrOneOfItsErrors : Prop :=
  ∀ (i : Instr) (s : State), ∃ t, exec i s = .next t ∧
    ((t.succeeded ∧ portsDriven t = rowOf i) ∨ ∃ c ∈ codesRaised i, t.failedWith c)

/-- R30: input ports a command does not read cannot change any output of it. Where the outcome is a NaN, the equality rests
on the model's counter (DESIGN CHOICE, log 8): both evaluations make the draw of the same number, where the spec lets two
evaluations draw differently (U2). -/
def Obligations.UnreadPortsAreIgnored : Prop :=
  ∀ (i : Instr) (s : State) (q : Ports), agreeOnRead i s.ports q → SameOutcome i s { s with ports := q }

/-- R20, R48, R180: the outcome does not depend on an earlier outcome, an error among them, nor on what comes later. Where
the outcome is a NaN, it is the model's counter (DESIGN CHOICE, log 8) that makes it equal: both evaluations make the draw
of the same number. The spec lets two evaluations draw differently (R34, R44, U2). -/
def Obligations.OutcomeIgnoresHistory : Prop :=
  ∀ (i : Instr) (s : State) (o : Option Result) (ps : List Ports),
    SameOutcome i s { s with out := o, pending := ps }

/-- R44: evaluating the same command on the same inputs again gives the same outputs, unless a NaN was drawn. -/
def Obligations.HeldInputsGiveTheSameOutputs : Prop :=
  ∀ s t : State, step s = .next t → t.pending = [] → t.draws = s.draws →
    ∃ u, step t = .next u ∧ u.out = t.out ∧ u.draws = t.draws

/-- R196, R31: changing `CMD` leaves every output port unspecified, so that no result can be copied after it, and holds
every operand. `withFetchWord` is this change where nothing is pending (the model's choice of how a command is put in,
log 7). -/
def Obligations.ChangingCmdLosesTheOutputs : Prop :=
  ∀ (s : State) (c : CommandWord),
    (s.changeCmd c).ports = { s.ports with cmd := c } ∧ (s.changeCmd c).params = s.params ∧
    (s.changeCmd c).errPort = none ∧ portsDriven (s.changeCmd c) = List.replicate 11 false ∧
    (s.changeCmd c).feedValue = none ∧ (s.changeCmd c).feedText = none ∧ (s.changeCmd c).feedFields = none ∧
    ∀ nbits w : Nat, s.pending = [] → s.withFetchWord nbits w = s.changeCmd (BitVec.ofNat 4 w)

/-- R196: a chain on one instance: a result the caller copies before it changes `CMD` is the operand of the next command,
whichever that is, and the next step evaluates that command on it. -/
def Obligations.CopiedResultIsTheNextOperand : Prop :=
  ∀ (s t : State) (i : Instr), s.pending = [] →
    (s.feedValue = some t → ∃ w, s.valOutPort = some w ∧ (t.changeCmd (encode i)).ports.valIn = w ∧
      step (t.changeCmd (encode i)) = exec i (t.changeCmd (encode i))) ∧
    (s.feedText = some t → ∃ txt, s.txtOutPort = some txt ∧ (t.changeCmd (encode i)).ports.text = txt ∧
      step (t.changeCmd (encode i)) = exec i (t.changeCmd (encode i))) ∧
    (s.feedFields = some t → ∃ e f, s.expOutPort = some e ∧ s.fracOutPort = some f ∧
      (t.changeCmd (encode i)).ports.expIn = e ∧ (t.changeCmd (encode i)).ports.fracIn = f ∧
      step (t.changeCmd (encode i)) = exec i (t.changeCmd (encode i)))

/-! ### Format Catalog -/

/-- R25: both canonical descriptors meet the two invariants. -/
def Obligations.CatalogMeetsItsInvariants : Prop :=
  ∀ F ∈ [binary32, binary64],
    F.totalBits = 1 + F.exponentBits + F.fractionBits ∧ F.bias = 2 ^ (F.exponentBits - 1) - 1

/-- R100, R101: the words 0000 and 0001 are FMTINFO.B32 and FMTINFO.B64, and these read out the catalog's constants from
every state. -/
def Obligations.FmtinfoReadsOutTheCatalog : Prop :=
  decode 0b0000#4 = .ok .fmtinfoB32 ∧ decode 0b0001#4 = .ok .fmtinfoB64 ∧
  ∀ s : State,
    Succeeds .fmtinfoB32 s (fun t => t.fcBiasPort = some 127#10 ∧ t.fcExpBitsPort = some 8#4 ∧
      t.fcFracBitsPort = some 23#6 ∧ t.fcTotalBitsPort = some 32#7) ∧
    Succeeds .fmtinfoB64 s (fun t => t.fcBiasPort = some 1023#10 ∧ t.fcExpBitsPort = some 11#4 ∧
      t.fcFracBitsPort = some 52#6 ∧ t.fcTotalBitsPort = some 64#7)

/-! ### Layout and text -/

/-- R71: `fields` and `pack` are inverse, and a pattern is the number `s * 2^(N-1) + e * 2^p + f` of its fields; an empty
fraction field is 0. -/
def Obligations.FieldsAndPackAreInverse : Prop :=
  ∀ F : FormatDescriptor, F.admitted →
    (∀ bv : BitVec F.totalBits,
      pack F (fields F bv).sign (fields F bv).exponent.toNat (fields F bv).fraction.toNat = bv ∧
      bv.toNat = (fields F bv).sign.toNat * 2 ^ (F.totalBits - 1) +
        (fields F bv).exponent.toNat * 2 ^ F.fractionBits + (fields F bv).fraction.toNat ∧
      (F.fractionBits = 0 → (fields F bv).fraction.toNat = 0)) ∧
    (∀ (s : Bool) (e f : Nat), e ≤ 2 ^ F.exponentBits - 1 → f ≤ 2 ^ F.fractionBits - 1 →
      (fields F (pack F s e f)).sign = s ∧ (fields F (pack F s e f)).exponent.toNat = e ∧
      (fields F (pack F s e f)).fraction.toNat = f)

/-- R69: `parse` inverts `render` on every pattern, in every build R6 allows, and `render` gives the stripped text back
wherever `parse` succeeds. -/
def Obligations.ParseAndRenderAreInverse : Prop :=
  ∀ (P : Params) (F : FormatDescriptor), P.wf →
    (∀ bv : BitVec F.totalBits, parse P F (render F bv) = .ok bv) ∧
    (∀ (t : Text) (bv : BitVec F.totalBits), parse P F t = .ok bv → render F bv = strip P t)

/-- R67, R43: a whitespace character anywhere in the text changes nothing: the four text commands have the same outcome
with it as without it. For DECODE of a NaN pattern the equal outcome rests on the model's counter (DESIGN CHOICE, log 8):
both evaluations make the draw of the same number, where the spec lets them draw differently (R135, U2). -/
def Obligations.WhitespaceAnywhereIsIgnored : Prop :=
  ∀ c ∈ textCommands, ∀ (s : State) (p q : Ports) (u v : Text) (ch : CharCode), ch ∈ s.params.ws →
    p.text = u ++ v → q.text = u ++ ch :: v →
    SameOutcome c.1 { s with ports := p } { s with ports := q }

/-- R172, R173: the text commands raise LengthMismatch (1) when the stripped length is not the format's, and, when it is,
InvalidCharacter (2, or 1 when folded) when a stripped character is no bit; otherwise they succeed. Nothing beyond the
code is reported. -/
def Obligations.TextErrorsAreReported : Prop :=
  ∀ c ∈ textCommands, ∀ s : State,
    ((strip s.params s.ports.text).length ≠ c.2.totalBits → FailsWith 1#3 c.1 s) ∧
    ((strip s.params s.ports.text).length = c.2.totalBits →
      (∃ ch ∈ strip s.params s.ports.text, ch ≠ charZero ∧ ch ≠ charOne) →
      FailsWith (if s.params.errFold = .folded then 1#3 else 2#3) c.1 s) ∧
    ((strip s.params s.ports.text).length = c.2.totalBits →
      (∀ ch ∈ strip s.params s.ports.text, ch = charZero ∨ ch = charOne) →
      ∃ t, exec c.1 s = .next t ∧ t.succeeded)

/-! ### Encoder -/

/-- R121: ENCODE raises no error, whatever the value, and reads no text. For a NaN word the equal outcome of the second
clause rests on the model's counter (DESIGN CHOICE, log 8): both evaluations make the draw of the same number, where the
spec lets them draw differently (R116, U2). -/
def Obligations.EncodeNeverFailsAndReadsNoText : Prop :=
  ∀ c ∈ encodeCommands, ∀ s : State,
    (∃ t, exec c.1 s = .next t ∧ t.succeeded) ∧
    ∀ (txt : Text) (n : Nat),
      SameOutcome c.1 s { s with ports := { s.ports with txtIn := txt, txtInLen := n } }

/-- R112: the result is exactly `totalBits` characters, each `'0'` or `'1'` and so none of them whitespace, and
`TXT_OUT_LEN` says so. That its order is most significant bit first is said by the statements on its value. -/
def Obligations.EncodeOutputIsABitSequence : Prop :=
  ∀ c ∈ encodeCommands, ∀ s : State, ∃ t txt, exec c.1 s = .next t ∧ t.txtOutPort = some txt ∧
    t.txtOutLenPort = some (BitVec.ofNat 7 c.2.totalBits) ∧ txt.length = c.2.totalBits ∧
    (∀ ch ∈ txt, ch = charZero ∨ ch = charOne) ∧ (s.params.wf → ∀ ch ∈ txt, ch ∉ s.params.ws)

/-- R114: positive zero encodes to all zeros and negative zero to a one followed by zeros, and the two differ. -/
def Obligations.SignedZerosEncodeApart : Prop :=
  ∀ c ∈ encodeCommands, ∀ s : State,
    (s.ports.valIn = 0x0000000000000000#64 →
      Succeeds c.1 s (fun t => t.txtOutPort = some (List.replicate c.2.totalBits charZero))) ∧
    (s.ports.valIn = 0x8000000000000000#64 →
      Succeeds c.1 s (fun t => t.txtOutPort = some (charOne :: List.replicate (c.2.totalBits - 1) charZero)))

/-- R115: an infinity encodes to its sign, ones, zeros, and that pattern is the only one whose value it is. -/
def Obligations.InfinityHasOnePattern : Prop :=
  (∀ F : FormatDescriptor, F.admitted → ∀ (bv : BitVec F.totalBits) (s : Bool),
    val F bv = .inf s ↔ bv = pack F s (2 ^ F.exponentBits - 1) 0) ∧
  ∀ c ∈ encodeCommands, ∀ (s : State) (sign : Bool),
    s.ports.valIn = (if sign then 0xFFF0000000000000#64 else 0x7FF0000000000000#64) →
    Succeeds c.1 s (fun t => t.txtOutPort = some ((if sign then charOne else charZero) ::
      (List.replicate c.2.exponentBits charOne ++ List.replicate c.2.fractionBits charZero)))

/-- R116: every NaN word encodes, for every draw, to some sign, all ones, and a fraction that is not all zeros. -/
def Obligations.NanEncodesToSomeNanPattern : Prop :=
  ∀ c ∈ encodeCommands, ∀ s : State, isNanWord s.ports.valIn →
    SucceedsDrawing c.1 s (fun t => ∃ (sign : CharCode) (rest : Text),
      t.txtOutPort = some (sign :: (List.replicate c.2.exponentBits charOne ++ rest)) ∧
      (sign = charZero ∨ sign = charOne) ∧ rest.length = c.2.fractionBits ∧
      (∀ ch ∈ rest, ch = charZero ∨ ch = charOne) ∧ charOne ∈ rest ∧
      t.txtOutLenPort = some (BitVec.ofNat 7 c.2.totalBits))

/-- R111, R118: ENCODE.B64 never rounds: for every word that is not NaN it drives the word itself, bit for bit. -/
def Obligations.EncodeB64SpellsItsOperand : Prop :=
  ∀ s : State, ¬ isNanWord s.ports.valIn →
    Succeeds .encodeB64 s (fun t => t.txtOutLenPort = some 64#7 ∧
      ∃ txt, t.txtOutPort = some txt ∧ SpellsBits txt s.ports.valIn)

/-- R119, R110: for every word that is not NaN, ENCODE.B32 (written from R117 in rational arithmetic) drives the pattern
that the integer algorithm `narrow` computes. -/
def Obligations.EncodeB32ComputesNarrow : Prop :=
  ∀ s : State, ¬ isNanWord s.ports.valIn →
    Succeeds .encodeB32 s (fun t => t.txtOutLenPort = some 32#7 ∧
      ∃ txt, t.txtOutPort = some txt ∧ SpellsBits txt (narrow s.ports.valIn))

/-- R117: the encoded pattern of a positive magnitude, where it is finite, is nearest to it among all patterns of its sign,
and at a tie it is the even one. -/
def Obligations.EncodeChoosesTheNearestEvenPattern : Prop :=
  ∀ (F : FormatDescriptor) (draw : Bool × Nat) (s : Bool) (a q : ℚ), F.admitted → 1 ≤ F.fractionBits → 0 < a →
    (val F (encBits F draw (.fin s a))).magnitude = some q →
    ∀ (bv : BitVec F.totalBits) (q' : ℚ), (val F bv).signBit = some s → (val F bv).magnitude = some q' →
      |q - a| ≤ |q' - a| ∧
      (|q' - a| = |q - a| → bv ≠ encBits F draw (.fin s a) → (encBits F draw (.fin s a)).getLsbD 0 = false)

/-- R124, first half: encoding keeps the order of positive magnitudes. -/
def Obligations.EncodeIsMonotone : Prop :=
  ∀ (F : FormatDescriptor) (draw draw' : Bool × Nat) (a a' : ℚ), F.admitted → 0 < a → a ≤ a' →
    (encBits F draw (.fin false a)).toNat ≤ (encBits F draw' (.fin false a')).toNat

/-- R124, second half: a finite result is within half a quantum `2^(E-p)` of the magnitude, where `E` is the larger of
`floor_log2(a)` and `1 - B` (R117). -/
def Obligations.EncodeErrorIsAtMostHalfAQuantum : Prop :=
  ∀ (F : FormatDescriptor) (draw : Bool × Nat) (s : Bool) (a q : ℚ) (k : ℤ), F.admitted → 0 < a →
    (2 : ℚ) ^ k ≤ a → a < (2 : ℚ) ^ (k + 1) →
    (val F (encBits F draw (.fin s a))).magnitude = some q →
    |q - a| ≤ (2 : ℚ) ^ (max k (1 - (F.bias : ℤ)) - (F.fractionBits : ℤ) - 1)

/-- R117, R110: to Binary32, exactly the magnitudes from `2^128 - 2^103` up encode to infinity of their sign (the spec's own
decision D12, log 11). -/
def Obligations.Binary32OverflowThreshold : Prop :=
  ∀ (draw : Bool × Nat) (s : Bool) (a : ℚ), 0 < a →
    (encBits binary32 draw (.fin s a) = pack binary32 s 255 0 ↔ (2 : ℚ) ^ 128 - (2 : ℚ) ^ 103 ≤ a)

/-- R117(c): to Binary32, exactly the magnitudes up to half the smallest subnormal, `2^-150`, encode to a zero of their
sign. -/
def Obligations.Binary32UnderflowThreshold : Prop :=
  ∀ (draw : Bool × Nat) (s : Bool) (a : ℚ), 0 < a →
    (encBits binary32 draw (.fin s a) = pack binary32 s 0 0 ↔ a ≤ (2 : ℚ) ^ (-150 : ℤ))

/-- R123: the sign field of the pattern of a value that has a sign is that sign, in every branch. -/
def Obligations.EncodePreservesTheSign : Prop :=
  ∀ (F : FormatDescriptor) (draw : Bool × Nat) (v : Val) (s : Bool), F.admitted → v.signBit = some s →
    (fields F (encBits F draw v)).sign = s

/-- R118, R122(a): encoding the value of a pattern that is not NaN gives the pattern back, in every admitted format. -/
def Obligations.EncodeInvertsValue : Prop :=
  ∀ (F : FormatDescriptor) (draw : Bool × Nat) (bv : BitVec F.totalBits), F.admitted → val F bv ≠ .nan →
    encBits F draw (val F bv) = bv

/-- R122(b), as C5 corrects the source: a value that is not NaN survives encoding exactly when the format represents it. -/
def Obligations.ExactlyRepresentableValuesSurvive : Prop :=
  ∀ (F : FormatDescriptor) (draw : Bool × Nat) (v : Val), F.admitted → v ≠ .nan →
    (val F (encBits F draw v) = v ↔ ∃ bv : BitVec F.totalBits, val F bv = v)

/-- R122(b), its last clause for Binary32: the finite values represented are those with at most 24 significant bits at an
exponent from -126 to 127. -/
def Obligations.Binary32RepresentsTheseMagnitudes : Prop :=
  ∀ (s : Bool) (a : ℚ),
    (∃ bv : BitVec binary32.totalBits, val binary32 bv = .fin s a) ↔
    ∃ (E : ℤ) (n : ℕ), -126 ≤ E ∧ E ≤ 127 ∧ 0 < n ∧ n < 2 ^ 24 ∧ a = (n : ℚ) * (2 : ℚ) ^ (E - 23)

/-! ### Decoder -/

/-- R133: different patterns that are not NaN have different values; the NaN patterns, those with all ones above a nonzero
fraction, all have the one value NaN; and with the sign clear, larger patterns have larger magnitudes, up to infinity. -/
def Obligations.ValueIsInjectiveAndIncreasing : Prop :=
  ∀ F : FormatDescriptor, F.admitted →
    (∀ bv bv' : BitVec F.totalBits, val F bv ≠ .nan → val F bv = val F bv' → bv = bv') ∧
    (∀ bv : BitVec F.totalBits, val F bv = .nan ↔
      (fields F bv).exponent.toNat = 2 ^ F.exponentBits - 1 ∧ (fields F bv).fraction.toNat ≠ 0) ∧
    (∀ (bv bv' : BitVec F.totalBits) (q q' : ℚ), (val F bv).signBit = some false → (val F bv').signBit = some false →
      (val F bv).magnitude = some q → (val F bv').magnitude = some q' → (bv.toNat < bv'.toNat ↔ q < q')) ∧
    (∀ (bv bv' : BitVec F.totalBits) (q : ℚ), (val F bv).signBit = some false → (val F bv).magnitude = some q →
      val F bv' = .inf false → bv.toNat < bv'.toNat)

/-- R132: the extreme values of the two formats, at their patterns. -/
def Obligations.ExtremeValuesOfTheFormats : Prop :=
  val binary32 0x00000001#32 = .fin false ((2 : ℚ) ^ (-149 : ℤ)) ∧
  val binary32 0x007FFFFF#32 = .fin false ((2 ^ 23 - 1) * (2 : ℚ) ^ (-149 : ℤ)) ∧
  val binary32 0x00800000#32 = .fin false ((2 : ℚ) ^ (-126 : ℤ)) ∧
  val binary32 0x7F7FFFFF#32 = .fin false ((2 ^ 24 - 1) * (2 : ℚ) ^ (104 : ℤ)) ∧
  val binary64 0x0000000000000001#64 = .fin false ((2 : ℚ) ^ (-1074 : ℤ)) ∧
  val binary64 0x000FFFFFFFFFFFFF#64 = .fin false ((2 ^ 52 - 1) * (2 : ℚ) ^ (-1074 : ℤ)) ∧
  val binary64 0x0010000000000000#64 = .fin false ((2 : ℚ) ^ (-1022 : ℤ)) ∧
  val binary64 0x7FEFFFFFFFFFFFFF#64 = .fin false ((2 ^ 53 - 1) * (2 : ℚ) ^ (971 : ℤ))

/-- R134, R130: for every text that parses to a pattern that is not NaN, DECODE.B32 (written from R131 and R117) drives the
word that the integer algorithm `widen` computes. -/
def Obligations.DecodeB32ComputesWiden : Prop :=
  ∀ (s : State) (bv : BitVec 32), parse s.params binary32 s.ports.text = .ok bv → val binary32 bv ≠ .nan →
    Succeeds .decodeB32 s (fun t => t.valOutPort = some (widen bv))

/-- R138, R130: DECODE.B32 loses nothing: the word driven has exactly the pattern's value, and encoding that value to
Binary32 gives the pattern back. -/
def Obligations.DecodeB32IsExact : Prop :=
  ∀ (s : State) (bv : BitVec 32) (draw : Bool × Nat), parse s.params binary32 s.ports.text = .ok bv →
    val binary32 bv ≠ .nan →
    Succeeds .decodeB32 s (fun t => ∃ w, t.valOutPort = some w ∧ val binary64 w = val binary32 bv ∧
      encBits binary32 draw (val binary64 w) = bv)

/-- R136: DECODE.B64 of 64 bits that are not a NaN pattern drives the word those bits spell, most significant first. -/
def Obligations.DecodeB64ReadsTheBits : Prop :=
  ∀ (s : State) (w : Word), SpellsBits (strip s.params s.ports.text) w → ¬ isNanWord w →
    Succeeds .decodeB64 s (fun t => t.valOutPort = some w)

/-- R135: DECODE of a NaN pattern drives, for every draw, some word with exponent field 2047 and nonzero fraction. -/
def Obligations.NanDecodesToSomeNanWord : Prop :=
  ∀ c ∈ decodeCommands, ∀ (s : State) (bv : BitVec c.2.totalBits),
    parse s.params c.2 s.ports.text = .ok bv → val c.2 bv = .nan →
    SucceedsDrawing c.1 s (fun t => ∃ w, t.valOutPort = some w ∧ isNanWord w)

/-- R122(a) at the ports: DECODE, its `VAL_OUT` copied to `VAL_IN`, ENCODE of the same format: the result is the stripped
text, for every text that parses to a pattern that is not NaN. -/
def Obligations.DecodeThenEncodeReturnsTheText : Prop :=
  ∀ u ∈ formats, ∀ (s : State) (bv : BitVec u.format.totalBits),
    parse s.params u.format s.ports.text = .ok bv → val u.format bv ≠ .nan →
    ∃ s₁ s₂ s₃, exec u.decode s = .next s₁ ∧ s₁.feedValue = some s₂ ∧ exec u.encode s₂ = .next s₃ ∧
      s₁.succeeded ∧ s₃.succeeded ∧ s₃.txtOutPort = some (strip s.params s.ports.text)

/-! ### Field Extractor -/

/-- R152: the partition is purely positional, on the stripped text: position 0 is the sign, the next `exponentBits`
positions the exponent, the rest the fraction, each an unsigned number most significant bit first. -/
def Obligations.ExtractSplitsByPosition : Prop :=
  ∀ c ∈ extractCommands, ∀ (s : State) (sign : CharCode) (ex fr : Text),
    strip s.params s.ports.text = sign :: (ex ++ fr) → ex.length = c.2.exponentBits → fr.length = c.2.fractionBits →
    (∀ ch ∈ sign :: (ex ++ fr), ch = charZero ∨ ch = charOne) →
    Succeeds c.1 s (fun t =>
      t.signOutPort = some (if sign = charOne then 1#1 else 0#1) ∧
      t.expOutPort.map BitVec.toNat = some (msbFirst (ex.map (fun ch => ch == charOne))) ∧
      t.fracOutPort.map BitVec.toNat = some (msbFirst (fr.map (fun ch => ch == charOne))))

/-- R155: the triple of EXTRACT on the `TXT_OUT` of ENCODE is the fields of the encoded pattern of the value. -/
def Obligations.EncodeThenExtractGivesTheFields : Prop :=
  ∀ u ∈ formats, ∀ s : State, s.params.wf →
    ∃ (s₁ s₂ s₃ : State) (draw : Bool × Nat) (bv : BitVec u.format.totalBits),
      exec u.encode s = .next s₁ ∧ s₁.feedText = some s₂ ∧ exec u.extract s₂ = .next s₃ ∧
      bv = encBits u.format draw (val binary64 s.ports.valIn) ∧ s₃.succeeded ∧
      s₃.signOutPort = some (BitVec.ofBool (fields u.format bv).sign) ∧
      s₃.expOutPort.map BitVec.toNat = some (fields u.format bv).exponent.toNat ∧
      s₃.fracOutPort.map BitVec.toNat = some (fields u.format bv).fraction.toNat

/-! ### Classifier -/

/-- R163: `classify` maps every pair in range to exactly the category its condition names. -/
def Obligations.ClassifyFollowsItsFiveConditions : Prop :=
  ∀ (w : Nat) (e : BitVec w) (f : Nat), 1 ≤ w →
    HasCategory (2 ^ w - 1) e.toNat f (classify w e f).code

/-- R160, R174: the word 1000 is CLASSIFY.B32; in binary32's ranges it drives the category R163 gives, out of them it
raises OperandRange (3) and gives no category. -/
def Obligations.ClassifyB32InRangeAndOutOfRange : Prop :=
  decode 0b1000#4 = .ok .classifyB32 ∧
  ∀ s : State,
    (s.ports.expIn.toNat ≤ 255 → s.ports.fracIn.toNat ≤ 2 ^ 23 - 1 →
      Succeeds .classifyB32 s (fun t => ∃ code, t.catOutPort = some code ∧
        HasCategory 255 s.ports.expIn.toNat s.ports.fracIn.toNat code)) ∧
    (255 < s.ports.expIn.toNat ∨ 2 ^ 23 - 1 < s.ports.fracIn.toNat → FailsWith 3#3 .classifyB32 s)

/-- R161: the word 1001 is CLASSIFY.B64, which drives the category R163 gives for every pair of operands. -/
def Obligations.ClassifyB64CoversEveryOperand : Prop :=
  decode 0b1001#4 = .ok .classifyB64 ∧
  ∀ s : State,
    Succeeds .classifyB64 s (fun t => ∃ code, t.catOutPort = some code ∧
      HasCategory 2047 s.ports.expIn.toNat s.ports.fracIn.toNat code)

/-- R166: the category of a pattern's fields agrees with the constructor of its value, and a value is subnormal exactly
when its magnitude is below the smallest normal `2^(1-B)`. -/
def Obligations.CategoryAgreesWithValue : Prop :=
  ∀ F : FormatDescriptor, F.admitted → ∀ bv : BitVec F.totalBits,
    let c := classify F.exponentBits (fields F bv).exponent (fields F bv).fraction.toNat
    (c = .zero ↔ ∃ s, val F bv = .zero s) ∧
    (c = .subnormal ↔ ∃ s a, val F bv = .fin s a ∧ a < (2 : ℚ) ^ (1 - (F.bias : ℤ))) ∧
    (c = .normal ↔ ∃ s a, val F bv = .fin s a ∧ (2 : ℚ) ^ (1 - (F.bias : ℤ)) ≤ a) ∧
    (c = .infinity ↔ ∃ s, val F bv = .inf s) ∧
    (c = .nan ↔ val F bv = .nan)

/-- R153, R166: for every text that parses, EXTRACT, its fields copied to the operand ports, CLASSIFY of the same format
never raises and gives the category of the pattern. -/
def Obligations.ExtractThenClassifyNeverRaises : Prop :=
  ∀ u ∈ formats, ∀ (s : State) (bv : BitVec u.format.totalBits), parse s.params u.format s.ports.text = .ok bv →
    ∃ s₁ s₂ s₃, exec u.extract s = .next s₁ ∧ s₁.feedFields = some s₂ ∧ exec u.classify s₂ = .next s₃ ∧
      s₁.succeeded ∧ s₃.succeeded ∧
      s₃.catOutPort = some (classify u.format.exponentBits (fields u.format bv).exponent
        (fields u.format bv).fraction.toNat).code

/-- R116, R135, R166: a NaN stays a NaN through DECODE, ENCODE, EXTRACT and CLASSIFY, whatever is drawn on the way: the
category is 4 (NaN). -/
def Obligations.NanStaysNanThroughTheBlock : Prop :=
  ∀ c ∈ decodeCommands, ∀ u ∈ formats, ∀ (s : State) (bv : BitVec c.2.totalBits), s.params.wf →
    parse s.params c.2 s.ports.text = .ok bv → val c.2 bv = .nan →
    ∃ s₁ s₂ s₃ s₄ s₅ s₆ s₇,
      exec c.1 s = .next s₁ ∧ s₁.feedValue = some s₂ ∧ exec u.encode s₂ = .next s₃ ∧ s₃.feedText = some s₄ ∧
      exec u.extract s₄ = .next s₅ ∧ s₅.feedFields = some s₆ ∧ exec u.classify s₆ = .next s₇ ∧
      s₇.succeeded ∧ s₇.catOutPort = some 4#3
end

