-- ==== Sys2Proof/Laws/Numbers.lean ====
section
/-! SUPPORT. Laws/Numbers.lean: what the arithmetic primitives of Machine/Numbers.lean compute: `pow2` is the integer
power of two, `floorLog2` is the spec's `floor_log2` (R8), `rne` rounds to nearest with ties to even (R12), `rshRne` is
`rne` of a quotient (R119). -/

namespace Sys2Proof.Machine

theorem pow2_eq_zpow (k : Int) : pow2 k = (2 : ℚ) ^ k := by
  cases k with
  | ofNat n => simp [pow2]
  | negSucc n =>
    rw [pow2, zpow_negSucc, Rat.mkRat_eq_div]
    push_cast
    rw [one_div]

theorem pow2_pos (k : Int) : 0 < pow2 k := by
  rw [pow2_eq_zpow]; positivity

theorem pow2_natCast (n : Nat) : pow2 n = ((2 ^ n : Nat) : ℚ) := by
  rw [pow2_eq_zpow]; push_cast; exact zpow_natCast 2 n

theorem pow2_add (j k : Int) : pow2 (j + k) = pow2 j * pow2 k := by
  simp only [pow2_eq_zpow]; exact zpow_add₀ (by norm_num) j k

theorem pow2_sub (j k : Int) : pow2 (j - k) = pow2 j / pow2 k := by
  simp only [pow2_eq_zpow]; exact zpow_sub₀ (by norm_num) j k

theorem pow2_le_pow2 {j k : Int} : pow2 j ≤ pow2 k ↔ j ≤ k := by
  simp only [pow2_eq_zpow]; exact zpow_le_zpow_iff_right₀ (by norm_num)

theorem pow2_lt_pow2 {j k : Int} : pow2 j < pow2 k ↔ j < k := by
  simp only [pow2_eq_zpow]; exact zpow_lt_zpow_iff_right₀ (by norm_num)

/-- A positive natural number lies between two powers of two. -/
theorem natCast_between_pow2 {n : Nat} (hn : n ≠ 0) :
    pow2 (n.log2 : Int) ≤ (n : ℚ) ∧ (n : ℚ) < pow2 ((n.log2 : Int) + 1) := by
  constructor
  · rw [pow2_natCast]; exact_mod_cast Nat.log2_self_le hn
  · have h : ((n.log2 : Int) + 1) = ((n.log2 + 1 : Nat) : Int) := by push_cast; ring
    rw [h, pow2_natCast]
    exact_mod_cast Nat.lt_log2_self

/-- The defining property of `floor_log2` (R8). -/
theorem floorLog2_spec {a : ℚ} (ha : 0 < a) : pow2 (floorLog2 a) ≤ a ∧ a < pow2 (floorLog2 a + 1) := by
  have hnum : 0 < a.num := Rat.num_pos.mpr ha
  have hn0 : a.num.toNat ≠ 0 := by omega
  have hnc : ((a.num.toNat : Nat) : ℚ) = (a.num : ℚ) := by
    have : ((a.num.toNat : Nat) : Int) = a.num := Int.toNat_of_nonneg hnum.le
    exact_mod_cast congrArg (Int.cast : Int → ℚ) this
  have hd0 : a.den ≠ 0 := a.den_nz
  have hdq : (0 : ℚ) < (a.den : ℚ) := by exact_mod_cast a.den_pos
  obtain ⟨n1, n2⟩ := natCast_between_pow2 hn0
  obtain ⟨d1, d2⟩ := natCast_between_pow2 hd0
  have haq : a = (a.num.toNat : ℚ) / (a.den : ℚ) := by rw [hnc]; exact (Rat.num_div_den a).symm
  unfold floorLog2
  set kn : Int := (a.num.toNat.log2 : Int)
  set kd : Int := (a.den.log2 : Int)
  have hup : a < pow2 (kn - kd + 1) := by
    rw [haq, div_lt_iff₀ hdq]
    calc (a.num.toNat : ℚ) < pow2 (kn + 1) := n2
      _ = pow2 (kn - kd + 1) * pow2 kd := by rw [← pow2_add]; congr 1; ring
      _ ≤ pow2 (kn - kd + 1) * (a.den : ℚ) := by
        exact mul_le_mul_of_nonneg_left d1 (pow2_pos _).le
  have hlo : pow2 (kn - kd - 1) ≤ a := by
    rw [haq, le_div_iff₀ hdq]
    calc pow2 (kn - kd - 1) * (a.den : ℚ) ≤ pow2 (kn - kd - 1) * pow2 (kd + 1) :=
          mul_le_mul_of_nonneg_left d2.le (pow2_pos _).le
      _ = pow2 kn := by rw [← pow2_add]; congr 1; ring
      _ ≤ _ := n1
  dsimp only
  split
  · exact ⟨by assumption, hup⟩
  · refine ⟨hlo, ?_⟩
    rw [show kn - kd - 1 + 1 = kn - kd by ring]
    exact lt_of_not_ge (by assumption)

/-- `floor_log2(a)` is the only integer with that property (R8). -/
theorem floorLog2_eq {a : ℚ} {k : Int} (h1 : pow2 k ≤ a) (h2 : a < pow2 (k + 1)) : floorLog2 a = k := by
  have ha : 0 < a := lt_of_lt_of_le (pow2_pos k) h1
  obtain ⟨l, u⟩ := floorLog2_spec ha
  have e1 : k < floorLog2 a + 1 := pow2_lt_pow2.mp (lt_of_le_of_lt h1 u)
  have e2 : floorLog2 a < k + 1 := pow2_lt_pow2.mp (lt_of_le_of_lt l h2)
  omega

theorem floorLog2_mono {a b : ℚ} (ha : 0 < a) (h : a ≤ b) : floorLog2 a ≤ floorLog2 b := by
  have l := (floorLog2_spec ha).1
  have u := (floorLog2_spec (lt_of_lt_of_le ha h)).2
  have := pow2_lt_pow2.mp (lt_of_le_of_lt (l.trans h) u)
  omega

/-- The floor `rne` starts from, as a natural number. -/
theorem floor_toNat_cast {x : ℚ} (hx : 0 ≤ x) : ((x.floor.toNat : Nat) : ℚ) ≤ x ∧ x < (x.floor.toNat : ℚ) + 1 := by
  have h0 : 0 ≤ x.floor := Rat.le_floor_iff.mpr (by simpa using hx)
  have hc : ((x.floor.toNat : Nat) : ℚ) = (x.floor : ℚ) := by
    have : ((x.floor.toNat : Nat) : Int) = x.floor := Int.toNat_of_nonneg h0
    exact_mod_cast congrArg (Int.cast : Int → ℚ) this
  rw [hc]
  exact ⟨Rat.floor_le x, by exact_mod_cast Rat.lt_floor_add_one x⟩

/-- Everything `rne` can answer (R12): the floor or one more, with the halfway case going to the even one. -/
theorem rne_cases {x : ℚ} (hx : 0 ≤ x) :
    (rne x = x.floor.toNat ∧ x - (x.floor.toNat : ℚ) ≤ 1 / 2 ∧
      (x - (x.floor.toNat : ℚ) = 1 / 2 → x.floor.toNat % 2 = 0)) ∨
    (rne x = x.floor.toNat + 1 ∧ 1 / 2 ≤ x - (x.floor.toNat : ℚ) ∧ x - (x.floor.toNat : ℚ) < 1 ∧
      (x - (x.floor.toNat : ℚ) = 1 / 2 → x.floor.toNat % 2 = 1)) := by
  obtain ⟨-, h2⟩ := floor_toNat_cast hx
  unfold rne
  dsimp only
  split
  · rename_i h
    refine .inr ⟨rfl, ?_, by linarith, ?_⟩
    · rcases h with h | h
      · exact h.le
      · exact h.1.ge
    · intro he
      rcases h with h | h
      · exact absurd he h.ne'
      · exact h.2
  · rename_i h
    obtain ⟨ha, hb⟩ := not_or.mp h
    refine .inl ⟨rfl, not_lt.mp ha, fun he => ?_⟩
    rcases Nat.mod_two_eq_zero_or_one x.floor.toNat with h0 | h1
    · exact h0
    · exact absurd ⟨he, h1⟩ hb

/-- The result of `rne` is within a half of its argument. -/
theorem abs_rne_sub_le {x : ℚ} (hx : 0 ≤ x) : |(rne x : ℚ) - x| ≤ 1 / 2 := by
  obtain ⟨h1, h2⟩ := floor_toNat_cast hx
  rcases rne_cases hx with ⟨e, h, -⟩ | ⟨e, h, h', -⟩ <;> rw [e, abs_le] <;> push_cast <;>
    constructor <;> linarith

/-- At a tie `rne` answers the even one. -/
theorem rne_even_of_tie {x : ℚ} (hx : 0 ≤ x) (ht : |(rne x : ℚ) - x| = 1 / 2) : rne x % 2 = 0 := by
  obtain ⟨h1, h2⟩ := floor_toNat_cast hx
  rcases rne_cases hx with ⟨e, h, h'⟩ | ⟨e, h, h', h''⟩
  · rw [e] at ht ⊢
    rw [abs_of_nonpos (by linarith)] at ht
    exact h' (by linarith)
  · rw [e] at ht ⊢
    push_cast at ht
    rw [abs_of_nonneg (by linarith)] at ht
    have := h'' (by linarith)
    omega

/-- A natural number rounds to itself. -/
@[simp] theorem rne_natCast (n : Nat) : rne (n : ℚ) = n := by
  have hf : (n : ℚ).floor = (n : Int) := Int.floor_natCast (R := ℚ) n
  unfold rne
  simp [hf]

/-- Rounding keeps order. -/
theorem rne_mono {x y : ℚ} (hx : 0 ≤ x) (h : x ≤ y) : rne x ≤ rne y := by
  have hy := hx.trans h
  by_contra hlt
  have hlt : rne y + 1 ≤ rne x := by omega
  have hq : (rne y : ℚ) + 1 ≤ (rne x : ℚ) := by exact_mod_cast hlt
  have ax := abs_le.mp (abs_rne_sub_le hx)
  have ay := abs_le.mp (abs_rne_sub_le hy)
  have ex : (rne x : ℚ) - x = 1 / 2 := by linarith
  have ey : (rne y : ℚ) - y = -(1 / 2) := by linarith
  have evx := rne_even_of_tie hx (by rw [ex]; norm_num)
  have evy := rne_even_of_tie hy (by rw [ey]; norm_num)
  have : (rne x : ℚ) = (rne y : ℚ) + 1 := by linarith
  have : rne x = rne y + 1 := by exact_mod_cast this
  omega

/-- The integer form of the rounding of a quotient by a power of two (R119). -/
theorem rshRne_eq_rne (M : Nat) {k : Nat} (hk : 1 ≤ k) : rshRne M k = rne ((M : ℚ) / ((2 ^ k : Nat) : ℚ)) := by
  have hpos : (0 : ℚ) < ((2 ^ k : Nat) : ℚ) := by positivity
  have hfl : ((M : ℚ) / ((2 ^ k : Nat) : ℚ)).floor.toNat = M / 2 ^ k := by
    have h : ((M : ℚ) / ((2 ^ k : Nat) : ℚ)).floor = ((M / 2 ^ k : Nat) : Int) := by
      rw [Int.natCast_div]; exact Rat.floor_natCast_div_natCast M (2 ^ k)
    rw [h, Int.toNat_natCast]
  have hM : (M : ℚ) = ((M / 2 ^ k : Nat) : ℚ) * ((2 ^ k : Nat) : ℚ) + ((M % 2 ^ k : Nat) : ℚ) := by
    exact_mod_cast (by rw [Nat.div_add_mod'] : M = M / 2 ^ k * 2 ^ k + M % 2 ^ k)
  have hr : (M : ℚ) / ((2 ^ k : Nat) : ℚ) - ((M / 2 ^ k : Nat) : ℚ) = ((M % 2 ^ k : Nat) : ℚ) / ((2 ^ k : Nat) : ℚ) := by
    rw [eq_div_iff hpos.ne', sub_mul, div_mul_cancel₀ _ hpos.ne']
    linarith
  have hh : (2 ^ k : Nat) = 2 * 2 ^ (k - 1) := by
    rw [← pow_succ']; congr 1; omega
  unfold rshRne rne
  dsimp only
  rw [hfl, hr]
  have c1 : (1 / 2 : ℚ) < ((M % 2 ^ k : Nat) : ℚ) / ((2 ^ k : Nat) : ℚ) ↔ 2 ^ (k - 1) < M % 2 ^ k := by
    rw [lt_div_iff₀ hpos]
    have e : (1 / 2 : ℚ) * ((2 ^ k : Nat) : ℚ) = ((2 ^ (k - 1) : Nat) : ℚ) := by
      rw [hh]; push_cast; ring
    rw [e]; exact Nat.cast_lt
  have c2 : ((M % 2 ^ k : Nat) : ℚ) / ((2 ^ k : Nat) : ℚ) = 1 / 2 ↔ M % 2 ^ k = 2 ^ (k - 1) := by
    rw [div_eq_iff hpos.ne']
    have e : (1 / 2 : ℚ) * ((2 ^ k : Nat) : ℚ) = ((2 ^ (k - 1) : Nat) : ℚ) := by
      rw [hh]; push_cast; ring
    rw [e]; exact Nat.cast_inj
  simp only [c1, c2]

section MsbFirst

@[simp] theorem msbFirst_nil : msbFirst [] = 0 := rfl

@[simp] theorem msbFirst_cons (b : Bool) (bs : List Bool) :
    msbFirst (b :: bs) = b.toNat * 2 ^ bs.length + msbFirst bs := rfl

theorem msbFirst_lt (bs : List Bool) : msbFirst bs < 2 ^ bs.length := by
  induction bs with
  | nil => simp
  | cons b bs ih =>
    rw [msbFirst_cons, List.length_cons, pow_succ]
    have : b.toNat ≤ 1 := Bool.toNat_le b
    nlinarith [Nat.two_pow_pos bs.length]

theorem msbFirst_append (as bs : List Bool) :
    msbFirst (as ++ bs) = msbFirst as * 2 ^ bs.length + msbFirst bs := by
  induction as with
  | nil => simp
  | cons a as ih => rw [List.cons_append, msbFirst_cons, ih, msbFirst_cons, List.length_append, pow_add]; ring

/-- The bit at position `k` has weight `2^(length - 1 - k)` (R41). -/
theorem testBit_msbFirst (bs : List Bool) (k : Nat) (hk : k < bs.length) :
    (msbFirst bs).testBit (bs.length - 1 - k) = bs[k] := by
  induction bs generalizing k with
  | nil => simp at hk
  | cons b bs ih =>
    have hlt := msbFirst_lt bs
    rw [msbFirst_cons, List.length_cons]
    cases k with
    | zero =>
      have e : bs.length + 1 - 1 - 0 = bs.length := by omega
      rw [e, mul_comm, Nat.testBit_two_pow_mul_add _ hlt]
      cases b <;> simp
    | succ k =>
      rw [List.length_cons] at hk
      have e : bs.length + 1 - 1 - (k + 1) = bs.length - 1 - k := by omega
      have hlt' : bs.length - 1 - k < bs.length := by omega
      rw [e, mul_comm, Nat.testBit_two_pow_mul_add _ hlt, if_pos hlt', ih k (by omega)]
      rfl

end MsbFirst

end Sys2Proof.Machine
end

