-- ==== Sys2Proof/Laws/Fields.lean ====
section
/-! SUPPORT. Laws/Fields.lean: the fields of a pattern and the pattern of fields as natural numbers (R71), and the
magnitudes of R131 in their integer forms. -/

namespace Sys2Proof.Machine

variable {F : FormatDescriptor}

theorem fields_exponent_toNat (bv : BitVec F.totalBits) :
    (fields F bv).exponent.toNat = bv.toNat / 2 ^ F.fractionBits % 2 ^ F.exponentBits := by
  simp [fields, BitVec.extractLsb'_toNat, Nat.shiftRight_eq_div_pow]

theorem fields_fraction_toNat (bv : BitVec F.totalBits) :
    (fields F bv).fraction.toNat = bv.toNat % 2 ^ F.fractionBits := by
  simp [fields, BitVec.extractLsb'_toNat]

/-- The bits of an admitted pattern: sign above exponent above fraction (R70). -/
theorem fields_sign_toNat (h : F.admitted) (bv : BitVec F.totalBits) :
    (fields F bv).sign.toNat = bv.toNat / 2 ^ (F.exponentBits + F.fractionBits) := by
  have hN : F.totalBits - 1 = F.exponentBits + F.fractionBits := by have := h.2.1; omega
  have hlt : bv.toNat < 2 ^ (F.exponentBits + F.fractionBits) * 2 := by
    calc bv.toNat < 2 ^ F.totalBits := bv.isLt
      _ = 2 ^ (F.exponentBits + F.fractionBits) * 2 := by rw [← pow_succ]; congr 1; have := h.2.1; omega
  have hq : bv.toNat / 2 ^ (F.exponentBits + F.fractionBits) < 2 :=
    (Nat.div_lt_iff_lt_mul (Nat.two_pow_pos _)).mpr (by omega)
  simp only [fields, hN, BitVec.getLsbD, Nat.testBit_eq_decide_div_mod_eq]
  rw [Nat.mod_eq_of_lt hq]
  generalize bv.toNat / 2 ^ (F.exponentBits + F.fractionBits) = q at hq
  interval_cases q <;> rfl

/-- `uint` of an assembled pattern (R71). -/
theorem pack_toNat (h : F.admitted) (s : Bool) {e f : Nat} (he : e ≤ maxExponent F) (hf : f < 2 ^ F.fractionBits) :
    (pack F s e f).toNat =
      s.toNat * 2 ^ (F.exponentBits + F.fractionBits) + e * 2 ^ F.fractionBits + f := by
  have hep : 0 < 2 ^ F.exponentBits := Nat.two_pow_pos _
  have he' : e < 2 ^ F.exponentBits := by unfold maxExponent at he; omega
  have hcat : (BitVec.ofBool s ++ BitVec.ofNat F.exponentBits e ++ BitVec.ofNat F.fractionBits f).toNat =
      s.toNat * 2 ^ (F.exponentBits + F.fractionBits) + e * 2 ^ F.fractionBits + f := by
    rw [BitVec.toNat_append, BitVec.toNat_append, BitVec.toNat_ofNat, BitVec.toNat_ofNat, Nat.mod_eq_of_lt he',
      Nat.mod_eq_of_lt hf, ← Nat.shiftLeft_add_eq_or_of_lt he', ← Nat.shiftLeft_add_eq_or_of_lt hf,
      Nat.shiftLeft_eq, Nat.shiftLeft_eq, BitVec.toNat_ofBool, pow_add]
    ring
  rw [pack, BitVec.toNat_setWidth, hcat, Nat.mod_eq_of_lt]
  have := (BitVec.ofBool s ++ BitVec.ofNat F.exponentBits e ++ BitVec.ofNat F.fractionBits f).isLt
  rw [hcat] at this
  rwa [h.2.1]

/-- The bias of an admitted descriptor is not above its largest exponent. -/
theorem maxExponent_eq (h : F.admitted) : maxExponent F = 2 * F.bias + 1 := by
  obtain ⟨h1, -, h3⟩ := h
  have e : F.exponentBits = (F.exponentBits - 1) + 1 := by omega
  have := Nat.two_pow_pos (F.exponentBits - 1)
  unfold maxExponent
  rw [e, pow_succ, h3]
  omega

/-- The subnormal magnitude in units of the smallest subnormal (R131, "equivalent integer forms"). -/
theorem subnormalMagnitude_eq (f : Nat) :
    subnormalMagnitude F f = (f : ℚ) * pow2 (1 - F.bias - F.fractionBits) := by
  rw [subnormalMagnitude, pow2_sub (1 - (F.bias : Int))]
  field_simp

/-- The normal magnitude in units of its quantum (R131, "equivalent integer forms"). -/
theorem normalMagnitude_eq (e f : Nat) :
    normalMagnitude F e f = ((2 ^ F.fractionBits + f : Nat) : ℚ) * pow2 ((e : Int) - F.bias - F.fractionBits) := by
  have hp := (pow2_pos F.fractionBits).ne'
  rw [normalMagnitude, pow2_sub ((e : Int) - F.bias), Nat.cast_add, ← pow2_natCast]
  field_simp

end Sys2Proof.Machine
end

