-- ==== Sys2Proof/Laws/State.lean ====
section
/-! SUPPORT. Laws/State.lean: one lemma per field per update of State and Ports, true by rfl, so that no proof unfolds a
record update; and what each output port reads from each kind of outcome. -/

namespace Sys2Proof.Machine

section Drive
variable (r : Result) (s : State)

@[simp] theorem State.drive_params : (s.drive r).params = s.params := rfl
@[simp] theorem State.drive_ports : (s.drive r).ports = s.ports := rfl
@[simp] theorem State.drive_out : (s.drive r).out = some r := rfl
@[simp] theorem State.drive_pending : (s.drive r).pending = s.pending := rfl
@[simp] theorem State.drive_draws : (s.drive r).draws = s.draws := rfl

end Drive

section Raise
variable (k : ErrorKind) (s : State)

@[simp] theorem State.raise_params : (s.raise k).params = s.params := rfl
@[simp] theorem State.raise_ports : (s.raise k).ports = s.ports := rfl
@[simp] theorem State.raise_out : (s.raise k).out = some (.error (reportedKind s.params.errFold k)) := rfl
@[simp] theorem State.raise_pending : (s.raise k).pending = s.pending := rfl
@[simp] theorem State.raise_draws : (s.raise k).draws = s.draws := rfl

end Raise

section Draws
variable (b : Bool) (s : State)

@[simp] theorem State.countDraw_params : (s.countDraw b).params = s.params := rfl
@[simp] theorem State.countDraw_ports : (s.countDraw b).ports = s.ports := rfl
@[simp] theorem State.countDraw_out : (s.countDraw b).out = s.out := rfl
@[simp] theorem State.countDraw_pending : (s.countDraw b).pending = s.pending := rfl
@[simp] theorem State.countDraw_draws : (s.countDraw b).draws = if b then s.draws + 1 else s.draws := rfl

end Draws

section Present
variable (p : Ports) (s : State)

@[simp] theorem State.present_params : (s.present p).params = s.params := rfl
@[simp] theorem State.present_ports : (s.present p).ports = p := rfl
@[simp] theorem State.present_out : (s.present p).out = none := rfl
@[simp] theorem State.present_pending : (s.present p).pending = s.pending := rfl
@[simp] theorem State.present_draws : (s.present p).draws = s.draws := rfl

theorem State.presentNext_held (h : s.pending = []) : s.presentNext = s := by
  simp [State.presentNext, h]

theorem State.presentNext_next (ps : List Ports) (h : s.pending = p :: ps) :
    s.presentNext = { s.present p with pending := ps } := by
  simp [State.presentNext, h]

@[simp] theorem State.presentNext_params : s.presentNext.params = s.params := by
  unfold State.presentNext; split <;> rfl

@[simp] theorem State.presentNext_draws : s.presentNext.draws = s.draws := by
  unfold State.presentNext; split <;> rfl

end Present

section ChangeCmd
variable (c : CommandWord) (s : State)

@[simp] theorem State.changeCmd_params : (s.changeCmd c).params = s.params := rfl
@[simp] theorem State.changeCmd_cmd : (s.changeCmd c).ports.cmd = c := rfl
@[simp] theorem State.changeCmd_valIn : (s.changeCmd c).ports.valIn = s.ports.valIn := rfl
@[simp] theorem State.changeCmd_text : (s.changeCmd c).ports.text = s.ports.text := rfl
@[simp] theorem State.changeCmd_expIn : (s.changeCmd c).ports.expIn = s.ports.expIn := rfl
@[simp] theorem State.changeCmd_fracIn : (s.changeCmd c).ports.fracIn = s.ports.fracIn := rfl
@[simp] theorem State.changeCmd_out : (s.changeCmd c).out = none := rfl
@[simp] theorem State.changeCmd_pending : (s.changeCmd c).pending = s.pending := rfl
@[simp] theorem State.changeCmd_draws : (s.changeCmd c).draws = s.draws := rfl

/-- Another command word leaves what can be presented presentable. -/
theorem State.changeCmd_presentable {P : Params} (h : s.ports.presentable P) :
    (s.changeCmd c).ports.presentable P := h

end ChangeCmd

section Feed
variable {s t : State}

/-- Everything the copy of `VAL_OUT` can do (R196). -/
theorem State.feedValue_eq_some :
    s.feedValue = some t ↔ ∃ w, s.valOutPort = some w ∧ t = s.present { s.ports with valIn := w } := by
  simp [State.feedValue, eq_comm]

/-- Everything the copy of `TXT_OUT` can do (R196). -/
theorem State.feedText_eq_some :
    s.feedText = some t ↔ ∃ txt, s.txtOutPort = some txt ∧ t = s.present (s.ports.withText txt) := by
  simp [State.feedText, eq_comm]

/-- Everything the copy of the fields can do (R196). -/
theorem State.feedFields_eq_some :
    s.feedFields = some t ↔ ∃ e f, s.expOutPort = some e ∧ s.fracOutPort = some f ∧
      t = s.present { s.ports with expIn := e, fracIn := f } := by
  unfold State.feedFields
  cases s.expOutPort <;> cases s.fracOutPort <;> simp [eq_comm]

end Feed

section WithText
variable (p : Ports) (t : Text)

@[simp] theorem Ports.withText_cmd : (p.withText t).cmd = p.cmd := rfl
@[simp] theorem Ports.withText_valIn : (p.withText t).valIn = p.valIn := rfl
@[simp] theorem Ports.withText_txtInLen : (p.withText t).txtInLen = t.length := rfl
@[simp] theorem Ports.withText_expIn : (p.withText t).expIn = p.expIn := rfl
@[simp] theorem Ports.withText_fracIn : (p.withText t).fracIn = p.fracIn := rfl

/-- The text the caller writes is the text operand. -/
@[simp] theorem Ports.text_withText : (p.withText t).text = t := by
  simp [Ports.text, Ports.withText]

/-- A text that fits leaves the port at its width. -/
theorem Ports.presentable_withText {P : Params} (h : p.presentable P) (ht : t.length ≤ P.maxch) :
    (p.withText t).presentable P := by
  refine ⟨?_, ht⟩
  simp only [Ports.withText, List.length_append, List.length_drop, h.1]
  omega

end WithText

section Outputs
variable {s : State}

theorem State.errPort_of (r : Result) (h : s.out = some r) : s.errPort = some r.errCode := by
  simp [State.errPort, h]

theorem State.txtOutPort_of (cs : Text) (n : BitVec 7) (h : s.out = some (.text cs n)) :
    s.txtOutPort = some cs := by simp [State.txtOutPort, h]

theorem State.txtOutLenPort_of (cs : Text) (n : BitVec 7) (h : s.out = some (.text cs n)) :
    s.txtOutLenPort = some n := by simp [State.txtOutLenPort, h]

theorem State.valOutPort_of (w : Word) (h : s.out = some (.value w)) : s.valOutPort = some w := by
  simp [State.valOutPort, h]

theorem State.signOutPort_of (b : BitVec 1) (e : BitVec 11) (f : BitVec 52) (h : s.out = some (.triple b e f)) :
    s.signOutPort = some b := by simp [State.signOutPort, h]

theorem State.expOutPort_of (b : BitVec 1) (e : BitVec 11) (f : BitVec 52) (h : s.out = some (.triple b e f)) :
    s.expOutPort = some e := by simp [State.expOutPort, h]

theorem State.fracOutPort_of (b : BitVec 1) (e : BitVec 11) (f : BitVec 52) (h : s.out = some (.triple b e f)) :
    s.fracOutPort = some f := by simp [State.fracOutPort, h]

theorem State.catOutPort_of (c : ValueCategory) (h : s.out = some (.category c)) : s.catOutPort = some c.code := by
  simp [State.catOutPort, h]

end Outputs

end Sys2Proof.Machine
end

