-- ==== Sys2Proof/Laws/Text.lean ====
section
/-! SUPPORT. Laws/Text.lean: what `strip`, `parse` and `render` can answer. -/

namespace Sys2Proof.Machine

variable {P : Params} {F : FormatDescriptor}

@[simp] theorem strip_append (P : Params) (u v : Text) : strip P (u ++ v) = strip P u ++ strip P v := by
  simp [strip]

/-- A whitespace character is stripped wherever it stands (R67). -/
theorem strip_cons_whitespace {c : CharCode} (h : c ∈ P.ws) (t : Text) : strip P (c :: t) = strip P t := by
  simp [strip, isWhitespace, h]

/-- A character outside `WS` is kept (R67). -/
theorem strip_cons_other {c : CharCode} (h : c ∉ P.ws) (t : Text) : strip P (c :: t) = c :: strip P t := by
  simp [strip, isWhitespace, h]

/-- A text with no whitespace is its own stripped text. -/
theorem strip_eq_self {t : Text} (h : ∀ c ∈ t, c ∉ P.ws) : strip P t = t := by
  simpa [strip, isWhitespace] using h

theorem isBit_iff (c : CharCode) : isBit c = true ↔ c = charZero ∨ c = charOne := by
  simp [isBit]

/-- No bit character is whitespace in a build R6 allows. -/
theorem isBit_not_whitespace (h : P.wf) {c : CharCode} (hc : isBit c = true) : c ∉ P.ws := by
  rcases (isBit_iff c).mp hc with rfl | rfl
  · exact h.2.2.1
  · exact h.2.2.2.1

/-- A bit sequence is its own stripped text in a build R6 allows. -/
theorem strip_bits (h : P.wf) {t : Text} (ht : t.all isBit = true) : strip P t = t :=
  strip_eq_self fun _ hc => isBit_not_whitespace h (List.all_eq_true.mp ht _ hc)

@[simp] theorem isBit_bitChar (b : Bool) : isBit (bitChar b) = true := by cases b <;> rfl

@[simp] theorem charBit_bitChar (b : Bool) : charBit (bitChar b) = b := by cases b <;> rfl

theorem bitChar_charBit {c : CharCode} (h : isBit c = true) : bitChar (charBit c) = c := by
  rcases (isBit_iff c).mp h with rfl | rfl <;> rfl

@[simp] theorem render_length (bv : BitVec F.totalBits) : (render F bv).length = F.totalBits := by
  simp [render]

theorem render_all_isBit (bv : BitVec F.totalBits) : (render F bv).all isBit = true := by
  simp [render]

/-- The character at position `k` is that of bit `N-1-k` (R69). -/
theorem render_getElem (bv : BitVec F.totalBits) (k : Nat) (hk : k < (render F bv).length) :
    (render F bv)[k] = bitChar (bv.getLsbD (F.totalBits - 1 - k)) := by
  simp [render]

/-- The bit of an assembled pattern at position `N-1-k` is the character at position `k` (R68). -/
theorem patternOf_getLsbD {u : Text} (hu : u.length = F.totalBits) (k : Nat) (hk : k < u.length) :
    (patternOf F u).getLsbD (F.totalBits - 1 - k) = charBit u[k] := by
  have h := testBit_msbFirst (u.map charBit) k (by simpa using hk)
  have hN : F.totalBits - 1 - k = (u.map charBit).length - 1 - k := by rw [List.length_map, hu]
  have hlt : (u.map charBit).length - 1 - k < F.totalBits := by rw [List.length_map]; omega
  rw [List.getElem_map] at h
  rw [patternOf, BitVec.getLsbD_ofNat, hN, h, decide_eq_true hlt, Bool.true_and]

theorem patternOf_toNat {u : Text} (hu : u.length = F.totalBits) :
    (patternOf F u).toNat = msbFirst (u.map charBit) := by
  have := msbFirst_lt (u.map charBit)
  rw [List.length_map, hu] at this
  rw [patternOf, BitVec.toNat_ofNat, Nat.mod_eq_of_lt this]

/-- Everything `parse` can answer (R68). -/
theorem parse_cases (P : Params) (F : FormatDescriptor) (t : Text) :
    ((strip P t).length ≠ F.totalBits ∧ parse P F t = .error .lengthMismatch) ∨
    ((strip P t).length = F.totalBits ∧ (strip P t).all isBit = false ∧ parse P F t = .error .invalidCharacter) ∨
    ((strip P t).length = F.totalBits ∧ (strip P t).all isBit = true ∧ parse P F t = .ok (patternOf F (strip P t))) := by
  unfold parse
  by_cases h : (strip P t).length = F.totalBits
  · cases hb : (strip P t).all isBit <;> simp [h, hb]
  · simp [h]

/-- `parse` looks at the stripped text only (R67, R68). -/
theorem parse_congr {t u : Text} (h : strip P t = strip P u) : parse P F t = parse P F u := by
  simp only [parse, h]

theorem parse_ok {t : Text} {bv : BitVec F.totalBits} (h : parse P F t = .ok bv) :
    (strip P t).length = F.totalBits ∧ (strip P t).all isBit = true ∧ bv = patternOf F (strip P t) := by
  rcases parse_cases P F t with ⟨-, e⟩ | ⟨-, -, e⟩ | ⟨hl, hb, e⟩
  · simp [e] at h
  · simp [e] at h
  · rw [e] at h
    exact ⟨hl, hb, (Except.ok.inj h).symm⟩

end Sys2Proof.Machine
end

