-- ==== Sys2Proof/Laws/Ops.lean ====
section
/-! SUPPORT. Laws/Ops.lean: one lemma for each shared operation of the meanings that says once everything it can do. -/

namespace Sys2Proof.Machine

/-- The error code a raised error shows on `ERR` (R171, R173). -/
theorem State.raise_errPort (k : ErrorKind) (s : State) :
    (s.raise k).errPort = some (reportedKind s.params.errFold k).code := rfl

theorem State.drive_errPort (r : Result) (s : State) : (s.drive r).errPort = some r.errCode := rfl

/-- A reported error never has code 0, so an error is never taken for a success (R170). -/
theorem ErrorKind.code_ne_zero (k : ErrorKind) : k.code ≠ 0#3 := by cases k <;> decide

/-- What ENCODE leaves (R110, R111). -/
theorem encodeTo_spec (F : FormatDescriptor) (s : State) :
    (encodeTo F s).params = s.params ∧ (encodeTo F s).ports = s.ports ∧ (encodeTo F s).pending = s.pending ∧
    (encodeTo F s).draws = (if (val binary64 s.ports.valIn).isNan then s.draws + 1 else s.draws) ∧
    (encodeTo F s).out = some (.text (render F (encBits F (Config.nanEncDraw s.draws F s.ports.valIn)
      (val binary64 s.ports.valIn))) (BitVec.ofNat 7 F.totalBits)) :=
  ⟨rfl, rfl, rfl, rfl, rfl⟩

/-- Everything DECODE's last part can leave (R130, R136). -/
theorem driveDecoded_cases (F : FormatDescriptor) (bv : BitVec F.totalBits) (w : Word) (s : State) :
    ((val F bv).isNan = true ∧ driveDecoded F bv w s =
      (s.countDraw true).drive (.value (nanPattern binary64 (Config.nanValDraw s.draws F bv.toNat)))) ∨
    ((val F bv).isNan = false ∧ driveDecoded F bv w s = s.drive (.value w)) := by
  unfold driveDecoded
  cases (val F bv).isNan <;> simp

/-- Everything EXTRACT can leave (R150, R151). -/
theorem extractFields_cases (F : FormatDescriptor) (s : State) :
    (∃ k, parse s.params F s.ports.text = .error k ∧ extractFields F s = s.raise k) ∨
    (∃ bv, parse s.params F s.ports.text = .ok bv ∧ extractFields F s = s.drive (tripleResult F (fields F bv))) := by
  unfold extractFields
  cases h : parse s.params F s.ports.text with
  | error k => exact .inl ⟨k, rfl, rfl⟩
  | ok bv => exact .inr ⟨bv, rfl, rfl⟩

/-- Everything DECODE.B32 can answer (R130). -/
theorem execDecodeB32_cases (s : State) :
    (∃ k, parse s.params binary32 s.ports.text = .error k ∧ execDecodeB32 s = .next (s.raise k)) ∨
    (∃ bv, parse s.params binary32 s.ports.text = .ok bv ∧ execDecodeB32 s =
      .next (driveDecoded binary32 bv (encBits binary64 (false, 0) (val binary32 bv)) s)) := by
  unfold execDecodeB32
  cases h : parse s.params binary32 s.ports.text with
  | error k => exact .inl ⟨k, rfl, rfl⟩
  | ok bv => exact .inr ⟨bv, rfl, rfl⟩

/-- Everything DECODE.B64 can answer (R136). -/
theorem execDecodeB64_cases (s : State) :
    (∃ k, parse s.params binary64 s.ports.text = .error k ∧ execDecodeB64 s = .next (s.raise k)) ∨
    (∃ bv, parse s.params binary64 s.ports.text = .ok bv ∧ execDecodeB64 s = .next (driveDecoded binary64 bv bv s)) := by
  unfold execDecodeB64
  cases h : parse s.params binary64 s.ports.text with
  | error k => exact .inl ⟨k, rfl, rfl⟩
  | ok bv => exact .inr ⟨bv, rfl, rfl⟩

/-- Everything CLASSIFY.B32 can answer (R160, R164). -/
theorem execClassifyB32_cases (s : State) :
    (s.ports.fieldsInRange binary32 = true ∧ execClassifyB32 s =
      .next (s.drive (.category (classify 8 (s.ports.expIn.setWidth 8) s.ports.fracIn.toNat)))) ∨
    (s.ports.fieldsInRange binary32 = false ∧ execClassifyB32 s = .next (s.raise .operandRange)) := by
  unfold execClassifyB32
  cases s.ports.fieldsInRange binary32 <;> simp

/-- Everything `withFetchWord` can do (log 7): the caller changes `CMD`, or the word is in its next presentation. -/
theorem State.withFetchWord_cases (s : State) (nbits w : Nat) :
    (s.pending = [] ∧ s.withFetchWord nbits w = s.changeCmd (BitVec.ofNat 4 w)) ∨
    (∃ p ps, s.pending = p :: ps ∧
      s.withFetchWord nbits w = { s with pending := { p with cmd := BitVec.ofNat 4 w } :: ps }) := by
  unfold State.withFetchWord
  cases h : s.pending with
  | nil => exact .inl ⟨rfl, rfl⟩
  | cons p ps => exact .inr ⟨p, ps, rfl, rfl⟩

/-- The next evaluation is of the word that was put in: either way it stands on `CMD`, over no outcome of before. -/
theorem State.withFetchWord_presentNext (s : State) (nbits w : Nat) :
    (s.withFetchWord nbits w).presentNext.commandWord = BitVec.ofNat 4 w ∧
    (s.withFetchWord nbits w).presentNext.out = none := by
  rcases s.withFetchWord_cases nbits w with ⟨h, e⟩ | ⟨p, ps, -, e⟩
  · rw [e, State.presentNext_held _ (by simp [h])]
    exact ⟨rfl, rfl⟩
  · rw [e]
    exact ⟨rfl, rfl⟩

/-- Everything a step can do (R63): the evaluation of the command presented, or IllegalCommand. -/
theorem step_cases (s : State) :
    (∃ i, decode s.presentNext.commandWord = .ok i ∧ step s = exec i s.presentNext) ∨
    (∃ e, decode s.presentNext.commandWord = .error e ∧ step s = .next (illegalCommand s.presentNext)) := by
  unfold step
  cases h : decode s.presentNext.commandWord with
  | ok i => exact .inl ⟨i, rfl, rfl⟩
  | error e => exact .inr ⟨e, rfl, rfl⟩

end Sys2Proof.Machine
end

