-- ==== Sys2Proof/Laws/PerInstr.lean ====
section
/-! SUPPORT. Laws/PerInstr.lean: the family CommandWord, one lemma per command: the command word is one of the ten of
R62, its `op` field is not a reserved one (R64), and the two commands of an operation differ in `fmt` only (R61). -/

namespace Sys2Proof.Laws.CommandWord

open Sys2Proof

/-- The command of the same operation for the other format (R61, R62). -/
def otherFormat : Instr → Instr
  | .fmtinfoB32 => .fmtinfoB64
  | .fmtinfoB64 => .fmtinfoB32
  | .encodeB32 => .encodeB64
  | .encodeB64 => .encodeB32
  | .decodeB32 => .decodeB64
  | .decodeB64 => .decodeB32
  | .extractB32 => .extractB64
  | .extractB64 => .extractB32
  | .classifyB32 => .classifyB64
  | .classifyB64 => .classifyB32

/-- What every command's word satisfies. -/
abbrev Statement (i : Instr) : Prop :=
  i.wf = true ∧ (encode i).toNat ≤ 9 ∧ (opField (encode i)).toNat ≤ 4 ∧
  opField (encode (otherFormat i)) = opField (encode i) ∧ fmtField (encode (otherFormat i)) ≠ fmtField (encode i)

theorem fmtinfoB32 : Statement .fmtinfoB32 := by decide
theorem fmtinfoB64 : Statement .fmtinfoB64 := by decide
theorem encodeB32 : Statement .encodeB32 := by decide
theorem encodeB64 : Statement .encodeB64 := by decide
theorem decodeB32 : Statement .decodeB32 := by decide
theorem decodeB64 : Statement .decodeB64 := by decide
theorem extractB32 : Statement .extractB32 := by decide
theorem extractB64 : Statement .extractB64 := by decide
theorem classifyB32 : Statement .classifyB32 := by decide
theorem classifyB64 : Statement .classifyB64 := by decide

end Sys2Proof.Laws.CommandWord
end

