-- ==== Sys2Proof/Tests/Slice0.lean ====
section
/-! SUPPORT. Tests/Slice0.lean: the smoke tests of the well-formedness checks, the decoding of every word of R62's table,
a few single evaluations with results taken from the spec's own vectors (95_test_vectors.md), and for every obligation
with hypotheses a concrete witness that meets them. -/

namespace Sys2Proof.Tests

-- One test after another: run side by side, each kernel evaluation holds a thread, and its stack, while it waits.
set_option Elab.async false

open Sys2Proof Sys2Proof.Machine Sys2Proof.Claims

/-! ### Helpers -/

/-- The text of `n` bits of a number, most significant first, written without the model's own `render`. -/
def bitsOf (n v : Nat) : Text :=
  (List.range n).map (fun k => if v / 2 ^ (n - 1 - k) % 2 = 1 then charOne else charZero)

/-- The letter `'x'`, code 0x78: no bit, and no whitespace of the default build. -/
abbrev charX : CharCode := 0x78#8

/-- The machine at reset with a value, a text, or fields on its operand ports. -/
def withValue (w : Word) : State := State.reset.present { State.reset.ports with valIn := w }
def withTextIn (t : Text) : State := State.reset.present (State.reset.ports.withText t)
def withFields (e : BitVec 11) (f : BitVec 52) : State :=
  State.reset.present { State.reset.ports with expIn := e, fracIn := f }
def withCmd (c : CommandWord) : State := State.reset.present { State.reset.ports with cmd := c }

/-- A port of the next state, if the outcome is one. -/
def portOf {α : Type} (read : State → Option α) : Host.Outcome State Fault Refusal → Option α
  | .next t => read t
  | .fault _ => none
  | .refused _ => none

/-- 95_test_vectors.md 3.10: `"1 10000010 10110100000000000000000"` in character codes. -/
def sourceExample : Text :=
  [0x31#8, 0x20#8, 0x31#8, 0x30#8, 0x30#8, 0x30#8, 0x30#8, 0x30#8, 0x31#8, 0x30#8, 0x20#8, 0x31#8] ++
  [0x30#8, 0x31#8, 0x31#8, 0x30#8, 0x31#8, 0x30#8, 0x30#8] ++ List.replicate 15 0x30#8

/-! ### Well-formedness: each check refuses an ill-formed term -/

theorem test_admits_both_formats : binary32.admitted ∧ binary64.admitted := by decide
theorem test_refuses_no_exponent_bits :
    ¬ FormatDescriptor.admitted { bias := 0, exponentBits := 0, fractionBits := 3, totalBits := 4 } := by decide
theorem test_refuses_wrong_width : ¬ FormatDescriptor.admitted { binary32 with totalBits := 33 } := by decide
theorem test_refuses_wrong_bias : ¬ FormatDescriptor.admitted { binary32 with bias := 128 } := by decide
theorem test_accepts_default_build : Params.standard.wf := by decide
theorem test_refuses_small_port : ¬ Params.wf { Params.standard with maxch := 65 } := by decide
theorem test_refuses_ws_without_space : ¬ Params.wf { Params.standard with ws := [0x09#8] } := by decide
theorem test_refuses_zero_as_whitespace : ¬ Params.wf { Params.standard with ws := [0x20#8, 0x30#8] } := by decide
theorem test_refuses_one_as_whitespace : ¬ Params.wf { Params.standard with ws := [0x20#8, 0x31#8] } := by decide
theorem test_refuses_unordered_ws : ¬ Params.wf { Params.standard with ws := [0x20#8, 0x09#8] } := by decide
theorem test_refuses_narrow_text_port :
    ¬ Ports.presentable Params.standard { State.reset.ports with txtIn := [charZero] } := by decide +kernel
theorem test_refuses_length_above_maxch :
    ¬ Ports.presentable Params.standard { State.reset.ports with txtInLen := 129 } := by decide +kernel
/-- A command has no field that could be ill formed. -/
theorem test_every_command_well_formed (i : Instr) : i.wf = true := by cases i <;> rfl

/-! ### Decoding: every word of R62's table, and the reserved words of R64 -/

theorem test_decode_fmtinfoB32 : decode 0b0000#4 = .ok .fmtinfoB32 := by decide
theorem test_decode_fmtinfoB64 : decode 0b0001#4 = .ok .fmtinfoB64 := by decide
theorem test_decode_encodeB32 : decode 0b0010#4 = .ok .encodeB32 := by decide
theorem test_decode_encodeB64 : decode 0b0011#4 = .ok .encodeB64 := by decide
theorem test_decode_decodeB32 : decode 0b0100#4 = .ok .decodeB32 := by decide
theorem test_decode_decodeB64 : decode 0b0101#4 = .ok .decodeB64 := by decide
theorem test_decode_extractB32 : decode 0b0110#4 = .ok .extractB32 := by decide
theorem test_decode_extractB64 : decode 0b0111#4 = .ok .extractB64 := by decide
theorem test_decode_classifyB32 : decode 0b1000#4 = .ok .classifyB32 := by decide
theorem test_decode_classifyB64 : decode 0b1001#4 = .ok .classifyB64 := by decide
theorem test_decode_reserved :
    decode 0b1010#4 = .error (.reservedOperation 5#3 0#1) ∧ decode 0b1011#4 = .error (.reservedOperation 5#3 1#1) ∧
    decode 0b1100#4 = .error (.reservedOperation 6#3 0#1) ∧ decode 0b1101#4 = .error (.reservedOperation 6#3 1#1) ∧
    decode 0b1110#4 = .error (.reservedOperation 7#3 0#1) ∧ decode 0b1111#4 = .error (.reservedOperation 7#3 1#1) := by
  decide
theorem test_decodeTableWord :
    decodeTableWord 8 6 = some .extractB32 ∧ decodeTableWord 8 10 = none ∧ decodeTableWord 8 16 = none := by decide

/-! ### Single evaluations, results from the spec's vectors -/

/-- 3.1. -/
theorem test_fmtinfoB32 : portOf State.fcBiasPort (exec .fmtinfoB32 State.reset) = some 127#10 := by decide +kernel
/-- 3.1. -/
theorem test_fmtinfoB64 : portOf State.fcFracBitsPort (exec .fmtinfoB64 State.reset) = some 52#6 := by decide +kernel
/-- 3.2, `5 * 2^-150`: a tie on the subnormal grid goes down to the even neighbour. -/
theorem test_encodeB32_tie :
    portOf State.txtOutPort (exec .encodeB32 (withValue 0x36B4000000000000#64)) = some (bitsOf 32 0x00000002) := by
  decide +kernel
/-- 3.2, `-(2^128 - 2^103)`: a tie whose carry overflows to infinity of the same sign. -/
theorem test_encodeB32_overflow :
    portOf State.txtOutPort (exec .encodeB32 (withValue 0xC7EFFFFFF0000000#64)) = some (bitsOf 32 0xFF800000) := by
  decide +kernel
/-- 3.3, the smallest subnormal of binary64. -/
theorem test_encodeB64_subnormal :
    portOf State.txtOutPort (exec .encodeB64 (withValue 0x0000000000000001#64)) = some (bitsOf 64 1) := by
  decide +kernel
/-- 3.3, -13.625. -/
theorem test_encodeB64_normal :
    portOf State.txtOutPort (exec .encodeB64 (withValue 0xC02B400000000000#64)) =
      some (bitsOf 64 0xC02B400000000000) := by
  decide +kernel
/-- 3.4, the source's example with spaces. -/
theorem test_decodeB32_spaces :
    portOf State.valOutPort (exec .decodeB32 (withTextIn sourceExample)) = some 0xC02B400000000000#64 := by
  decide +kernel
/-- 3.4, a subnormal pattern is a normal number of binary64. -/
theorem test_decodeB32_subnormal :
    portOf State.valOutPort (exec .decodeB32 (withTextIn (bitsOf 32 0x807FFFFF))) = some 0xB80FFFFFC0000000#64 := by
  decide +kernel
/-- 3.5, spaces at the field boundaries. -/
theorem test_decodeB64_spaces :
    portOf State.valOutPort (exec .decodeB64
      (withTextIn (bitsOf 1 0 ++ charSpace :: bitsOf 11 1023 ++ charSpace :: bitsOf 52 0))) =
      some 0x3FF0000000000000#64 := by
  decide +kernel
/-- 3.7, `"0"*63 + "b"`, with InvalidCharacter separate and folded. -/
theorem test_decodeB64_invalid_character :
    portOf State.errPort (exec .decodeB64 (withTextIn (bitsOf 63 0 ++ [0x62#8]))) = some 2#3 ∧
    portOf State.errPort (exec .decodeB64
      { withTextIn (bitsOf 63 0 ++ [0x62#8]) with params := { Params.standard with errFold := .folded } }) =
      some 1#3 := by
  decide +kernel
/-- S4 of the source, in the character codes of 3.10. -/
theorem test_extractB32_source_example :
    (fun o => (portOf State.signOutPort o, portOf State.expOutPort o, portOf State.fracOutPort o))
      (exec .extractB32 (withTextIn sourceExample)) = (some 1#1, some 130#11, some 5898240#52) := by
  decide +kernel
/-- S5 of the source: 31 characters. -/
theorem test_extractB32_short :
    portOf State.errPort (exec .extractB32 (withTextIn (bitsOf 31 0x1FC00000))) = some 1#3 := by decide +kernel
/-- 3.6, the fields of the binary64 nearest 0.1. -/
theorem test_extractB64 :
    (fun o => (portOf State.signOutPort o, portOf State.expOutPort o, portOf State.fracOutPort o))
      (exec .extractB64 (withTextIn (bitsOf 64 0x3FB999999999999A))) =
      (some 0#1, some 1019#11, some 2702159776422298#52) := by
  decide +kernel
/-- 3.8. -/
theorem test_classifyB32_nan : portOf State.catOutPort (exec .classifyB32 (withFields 255#11 1#52)) = some 4#3 := by
  decide +kernel
/-- 3.8, the exponent is above binary32's range: neither Infinity nor truncated to 0. -/
theorem test_classifyB32_out_of_range :
    portOf State.errPort (exec .classifyB32 (withFields 256#11 0#52)) = some 3#3 := by decide +kernel
/-- 3.8, 255 is an ordinary exponent of binary64. -/
theorem test_classifyB64_normal : portOf State.catOutPort (exec .classifyB64 (withFields 255#11 0#52)) = some 2#3 := by
  decide +kernel
/-- 3.8. -/
theorem test_classifyB64_infinity :
    portOf State.catOutPort (exec .classifyB64 (withFields 2047#11 0#52)) = some 3#3 := by decide +kernel
/-- 3.9: a reserved word is IllegalCommand whatever text stands on `TXT_IN`. -/
theorem test_step_reserved :
    portOf State.errPort (step ((withTextIn (bitsOf 31 0)).withFetchWord 8 0xC)) = some 4#3 := by decide +kernel
/-- R196: the word of a second command on `CMD` leaves `ERR` and the results of the first without a value. -/
theorem test_withFetchWord_loses_outputs :
    (portOf State.fcBiasPort (step State.reset) = some 127#10) ∧
    portOf (fun t => (t.withFetchWord 8 4).fcBiasPort) (step State.reset) = none ∧
    portOf (fun t => (t.withFetchWord 8 4).errPort) (step State.reset) = none := by decide +kernel
/-- The caller's next presentation is the one evaluated. -/
theorem test_step_presents :
    portOf State.fcBiasPort (step { withCmd 0xC#4 with pending := [{ State.reset.ports with cmd := 0x1#4 }] }) =
      some 1023#10 := by
  decide +kernel

/-! ### Witnesses: the hypotheses of the obligations can be met -/

theorem witness_PowerUpMeetsTheInvariant : Params.standard.wf := by decide

theorem witness_DecodeAndEncodeAgree :
    Instr.classifyB64.wf = true ∧ decode 0x9#4 = .ok .classifyB64 ∧ 9 < (0xA#4 : CommandWord).toNat := by decide

theorem witness_StepEvaluatesThePresentedCommand :
    decode State.reset.presentNext.ports.cmd = .ok .fmtinfoB32 ∧ State.reset.pending = [] ∧
    ({ State.reset with pending := [State.reset.ports] }).pending = State.reset.ports :: [] := by decide

theorem witness_ReservedWordRaisesIllegalCommand :
    (withCmd 0xA#4).presentNext.ports.cmd.extractLsb' 1 3 = 5#3 ∧
    (withCmd 0xD#4).presentNext.ports.cmd.extractLsb' 1 3 = 6#3 ∧
    (withCmd 0xF#4).presentNext.ports.cmd.extractLsb' 1 3 = 7#3 := by decide

theorem witness_StepKeepsTheInvariant : State.Inv State.reset ∧ ∃ t, step State.reset = .next t :=
  ⟨⟨by decide, by decide +kernel, by decide, fun _ h => nomatch h⟩, _, rfl⟩

theorem witness_ReachableStatesRunOn :
    Params.standard.wf ∧ ∃ t, step State.reset = .next t ∧ Reachable Params.standard t :=
  ⟨by decide, _, rfl, .step .powerUp rfl⟩

theorem witness_StepFrame : ∃ t, step (withCmd 0xA#4) = .next t := ⟨_, rfl⟩

theorem witness_EveryCommandCompletesWithItsFrame :
    makesDraw .encodeB32 (withValue 0x7FF0000000000001#64) ∧ ¬ makesDraw .encodeB32 (withValue 0x7FF0000000000000#64) ∧
    makesDraw .decodeB32 (withTextIn (bitsOf 32 0x7F800001)) ∧ ¬ makesDraw .fmtinfoB32 State.reset := by
  refine ⟨?_, ?_, ⟨0x7F800001#32, ?_, ?_⟩, id⟩
  · change isNanWord _; decide
  · change ¬ isNanWord _; decide
  · decide +kernel
  · decide +kernel

theorem witness_UnreadPortsAreIgnored :
    agreeOnRead .extractB32 (withTextIn (bitsOf 32 5)).ports
      { cmd := 0xF#4, valIn := 7#64, txtIn := bitsOf 32 5 ++ [charX], txtInLen := 32, expIn := 9#11, fracIn := 9#52 } ∧
    agreeOnRead .encodeB64 (withValue 7#64).ports { (withTextIn [charX]).ports with valIn := 7#64 } ∧
    agreeOnRead .classifyB32 (withFields 3#11 4#52).ports
      { (withTextIn [charX]).ports with expIn := 3#11, fracIn := 4#52 } := by
  unfold agreeOnRead
  decide +kernel

theorem witness_HeldInputsGiveTheSameOutputs :
    ∃ t, step (withCmd 0x8#4) = .next t ∧ t.pending = [] ∧ t.draws = (withCmd 0x8#4).draws := ⟨_, rfl, rfl, rfl⟩

theorem witness_ChangingCmdLosesTheOutputs : State.reset.pending = [] := rfl

theorem witness_CopiedResultIsTheNextOperand :
    (State.reset.drive (.value 7#64)).pending = [] ∧ (State.reset.drive (.value 7#64)).feedValue.isSome = true ∧
    (State.reset.drive (.text (bitsOf 64 5) 64#7)).feedText.isSome = true ∧
    (State.reset.drive (.triple 1#1 2047#11 0#52)).feedFields.isSome = true := ⟨rfl, rfl, rfl, rfl⟩

theorem witness_FieldsAndPackAreInverse :
    binary32.admitted ∧ 255 ≤ 2 ^ binary32.exponentBits - 1 ∧ 8388607 ≤ 2 ^ binary32.fractionBits - 1 ∧
    FormatDescriptor.admitted { bias := 0, exponentBits := 1, fractionBits := 0, totalBits := 2 } := by decide

theorem witness_ParseAndRenderAreInverse :
    Params.standard.wf ∧ parse Params.standard binary32 sourceExample = .ok 0xC15A0000#32 := by decide +kernel

theorem witness_WhitespaceAnywhereIsIgnored :
    charSpace ∈ State.reset.params.ws ∧ (withTextIn (bitsOf 3 5)).ports.text = bitsOf 2 2 ++ bitsOf 1 1 ∧
    (withTextIn (bitsOf 2 2 ++ charSpace :: bitsOf 1 1)).ports.text = bitsOf 2 2 ++ charSpace :: bitsOf 1 1 := by
  decide +kernel

theorem witness_TextErrorsAreReported :
    (strip Params.standard (withTextIn (bitsOf 31 0)).ports.text).length ≠ binary32.totalBits ∧
    (strip Params.standard (withTextIn (bitsOf 33 0)).ports.text).length ≠ binary32.totalBits ∧
    (strip Params.standard (withTextIn (bitsOf 31 0 ++ [charX])).ports.text).length = binary32.totalBits ∧
    (∃ ch ∈ strip Params.standard (withTextIn (bitsOf 31 0 ++ [charX])).ports.text, ch ≠ charZero ∧ ch ≠ charOne) ∧
    (strip Params.standard (withTextIn sourceExample).ports.text).length = binary32.totalBits ∧
    (∀ ch ∈ strip Params.standard (withTextIn sourceExample).ports.text, ch = charZero ∨ ch = charOne) := by
  decide +kernel

theorem witness_EncodeOutputIsABitSequence : (withValue 1#64).params.wf := by decide

theorem witness_SignedZerosEncodeApart :
    (withValue 0x0000000000000000#64).ports.valIn = 0x0000000000000000#64 ∧
    (withValue 0x8000000000000000#64).ports.valIn = 0x8000000000000000#64 := by decide

theorem witness_InfinityHasOnePattern :
    binary64.admitted ∧
    (withValue 0xFFF0000000000000#64).ports.valIn = (if true then 0xFFF0000000000000#64 else 0x7FF0000000000000#64) ∧
    (withValue 0x7FF0000000000000#64).ports.valIn = (if false then 0xFFF0000000000000#64 else 0x7FF0000000000000#64) := by
  decide

theorem witness_NanEncodesToSomeNanPattern :
    isNanWord (withValue 0x7FF0000000000001#64).ports.valIn ∧ isNanWord (withValue 0xFFFFFFFFFFFFFFFF#64).ports.valIn := by
  decide

theorem witness_EncodeB64SpellsItsOperand : ¬ isNanWord (withValue 0x7FF0000000000000#64).ports.valIn := by decide

theorem witness_EncodeB32ComputesNarrow : ¬ isNanWord (withValue 0xFFEFFFFFFFFFFFFF#64).ports.valIn := by decide

/-- `1 + 2^-24`, the tie between 0x3F800000 and 0x3F800001 (3.2). -/
theorem witness_EncodeChoosesTheNearestEvenPattern :
    binary32.admitted ∧ 1 ≤ binary32.fractionBits ∧ (0 : ℚ) < mkRat 16777217 16777216 ∧
    (val binary32 (encBits binary32 (false, 0) (.fin false (mkRat 16777217 16777216)))).magnitude = some 1 ∧
    (val binary32 0x3F800001#32).signBit = some false ∧
    (val binary32 0x3F800001#32).magnitude = some (mkRat 8388609 8388608) ∧
    |mkRat 8388609 8388608 - mkRat 16777217 16777216| = |1 - mkRat 16777217 16777216| ∧
    0x3F800001#32 ≠ encBits binary32 (false, 0) (.fin false (mkRat 16777217 16777216)) := by
  decide +kernel

theorem witness_EncodeIsMonotone : binary64.admitted ∧ (0 : ℚ) < mkRat 1 3 ∧ mkRat 1 3 ≤ mkRat 1 2 := by decide +kernel

theorem witness_EncodeErrorIsAtMostHalfAQuantum :
    binary32.admitted ∧ (0 : ℚ) < 3 / 2 ∧ (2 : ℚ) ^ (0 : ℤ) ≤ 3 / 2 ∧ 3 / 2 < (2 : ℚ) ^ ((0 : ℤ) + 1) ∧
    (val binary32 (encBits binary32 (false, 0) (.fin true (3 / 2)))).magnitude = some (3 / 2) := by
  refine ⟨by decide, by norm_num, by norm_num, by norm_num, by decide +kernel⟩

theorem witness_Binary32OverflowThreshold : (0 : ℚ) < 2 ^ 128 - 2 ^ 103 := by norm_num

theorem witness_Binary32UnderflowThreshold : (0 : ℚ) < (2 : ℚ) ^ (-150 : ℤ) := by positivity

theorem witness_EncodePreservesTheSign :
    binary32.admitted ∧ (Val.zero true).signBit = some true ∧ (Val.fin false 1).signBit = some false ∧
    (Val.inf true).signBit = some true := by decide

theorem witness_EncodeInvertsValue : binary32.admitted ∧ val binary32 0x807FFFFF#32 ≠ .nan := by decide +kernel

theorem witness_ExactlyRepresentableValuesSurvive : binary64.admitted ∧ Val.fin true (1 / 3) ≠ .nan := by decide +kernel

theorem witness_ValueIsInjectiveAndIncreasing :
    binary32.admitted ∧ val binary32 0x80000000#32 ≠ .nan ∧ val binary32 0x80000000#32 = val binary32 0x80000000#32 ∧
    (val binary32 0x00000000#32).signBit = some false ∧ (val binary32 0x00000000#32).magnitude = some 0 ∧
    (val binary32 0x3F800000#32).signBit = some false ∧ (val binary32 0x3F800000#32).magnitude = some 1 ∧
    val binary32 0x7F800000#32 = .inf false := by decide +kernel

theorem witness_DecodeB32ComputesWiden :
    parse State.reset.params binary32 (withTextIn (bitsOf 32 0x007FFFFF)).ports.text = .ok 0x007FFFFF#32 ∧
    val binary32 0x007FFFFF#32 ≠ .nan := by decide +kernel

theorem witness_DecodeB32IsExact :
    parse State.reset.params binary32 (withTextIn (bitsOf 32 0xFF800000)).ports.text = .ok 0xFF800000#32 ∧
    val binary32 0xFF800000#32 ≠ .nan := by decide +kernel

theorem witness_DecodeB64ReadsTheBits :
    SpellsBits (strip State.reset.params (withTextIn (bitsOf 64 0x7FF0000000000000)).ports.text) 0x7FF0000000000000#64 ∧
    ¬ isNanWord 0x7FF0000000000000#64 := by
  unfold SpellsBits
  decide +kernel

theorem witness_NanDecodesToSomeNanWord :
    parse State.reset.params binary32 (withTextIn (bitsOf 32 0xFFFFFFFF)).ports.text = .ok 0xFFFFFFFF#32 ∧
    val binary32 0xFFFFFFFF#32 = .nan ∧
    parse State.reset.params binary64 (withTextIn (bitsOf 64 0x7FF0000000000001)).ports.text =
      .ok 0x7FF0000000000001#64 ∧ val binary64 0x7FF0000000000001#64 = .nan := by decide +kernel

theorem witness_DecodeThenEncodeReturnsTheText :
    parse State.reset.params binary32 (withTextIn sourceExample).ports.text = .ok 0xC15A0000#32 ∧
    val binary32 0xC15A0000#32 ≠ .nan ∧
    parse State.reset.params binary64 (withTextIn (bitsOf 64 1)).ports.text = .ok 1#64 ∧
    val binary64 1#64 ≠ .nan := by decide +kernel

theorem witness_ExtractSplitsByPosition :
    strip State.reset.params (withTextIn sourceExample).ports.text =
      charOne :: (bitsOf 8 130 ++ bitsOf 23 5898240) ∧
    (bitsOf 8 130).length = binary32.exponentBits ∧ (bitsOf 23 5898240).length = binary32.fractionBits ∧
    (∀ ch ∈ charOne :: (bitsOf 8 130 ++ bitsOf 23 5898240), ch = charZero ∨ ch = charOne) ∧
    strip State.reset.params (withTextIn (bitsOf 64 0)).ports.text = charZero :: (bitsOf 11 0 ++ bitsOf 52 0) := by
  decide +kernel

theorem witness_EncodeThenExtractGivesTheFields : (withValue 0x7FF8000000000000#64).params.wf := by decide

/-- One pair for each of the five conditions of R163, at its boundaries (3.8). -/
theorem witness_ClassifyFollowsItsFiveConditions :
    1 ≤ 8 ∧ (0#8).toNat = 0 ∧ (0 < (1#8).toNat ∧ (254#8).toNat < 2 ^ 8 - 1) ∧ (255#8).toNat = 2 ^ 8 - 1 := by decide

theorem witness_ClassifyB32InRangeAndOutOfRange :
    (withFields 255#11 8388607#52).ports.expIn.toNat ≤ 255 ∧
    (withFields 255#11 8388607#52).ports.fracIn.toNat ≤ 2 ^ 23 - 1 ∧
    255 < (withFields 256#11 0#52).ports.expIn.toNat ∧ 2 ^ 23 - 1 < (withFields 0#11 8388608#52).ports.fracIn.toNat := by
  decide

theorem witness_CategoryAgreesWithValue : binary32.admitted ∧ binary64.admitted := by decide

theorem witness_ExtractThenClassifyNeverRaises :
    parse State.reset.params binary32 (withTextIn (bitsOf 32 0x7FC00000)).ports.text = .ok 0x7FC00000#32 ∧
    parse State.reset.params binary64 (withTextIn (bitsOf 64 0)).ports.text = .ok 0#64 := by decide +kernel

theorem witness_NanStaysNanThroughTheBlock :
    State.reset.params.wf ∧
    parse State.reset.params binary32 (withTextIn (bitsOf 32 0x7FC00000)).ports.text = .ok 0x7FC00000#32 ∧
    val binary32 0x7FC00000#32 = .nan ∧
    parse State.reset.params binary64 (withTextIn (bitsOf 64 0x7FF8000000000000)).ports.text =
      .ok 0x7FF8000000000000#64 ∧ val binary64 0x7FF8000000000000#64 = .nan := by decide +kernel

end Sys2Proof.Tests
end

section
/-! PROOFS. The invariant of Safety.lean (an allowed build, presentable inputs, a legal outcome) is kept by the shared
operations of Machine/Ops.lean, then by every command, then by every step. -/

namespace Sys2Proof.Machine

/-! ### Legal outcomes -/

/-- With errors folded, code 2 is never the one reported (R173). -/
theorem reportedKind_legal (P : Params) (k : ErrorKind) : (Result.error (reportedKind P.errFold k)).legal P := by
  intro hfold
  rw [hfold]
  cases k <;> decide

/-- A rendered pattern of a catalog format is a text R112 allows. -/
theorem render_legalText {F : FormatDescriptor} (hF : F = binary32 ∨ F = binary64) (bv : BitVec F.totalBits) :
    legalText (render F bv) (BitVec.ofNat 7 F.totalBits) := by
  refine ⟨?_, ?_, render_all_isBit bv⟩
  · rcases hF with rfl | rfl <;> simp
  · rw [render_length]
    rcases hF with rfl | rfl <;> rfl

/-! ### The shared operations -/

section
variable {s : State}

theorem State.Inv.drive (hs : s.Inv) {r : Result} (hr : r.legal s.params) : (s.drive r).Inv where
  params := hs.params
  ports := hs.ports
  pending := hs.pending
  out := by
    intro r' hr'
    obtain rfl : r = r' := Option.some.inj hr'
    exact hr

theorem State.Inv.raise (hs : s.Inv) (k : ErrorKind) : (s.raise k).Inv :=
  hs.drive (reportedKind_legal s.params k)

theorem State.Inv.countDraw (hs : s.Inv) (made : Bool) : (s.countDraw made).Inv :=
  ⟨hs.params, hs.ports, hs.pending, hs.out⟩

/-- A presentable presentation is put on the ports over no outcome at all. -/
theorem State.Inv.present (hs : s.Inv) {p : Ports} (hp : p.presentable s.params) : (s.present p).Inv where
  params := hs.params
  ports := hp
  pending := hs.pending
  out := by simp [State.outLegal]

/-- Any presentable presentations can be the coming ones. -/
theorem State.Inv.lineUp (hs : s.Inv) {ps : List Ports} (hps : ∀ p ∈ ps, p.presentable s.params) :
    ({ s with pending := ps } : State).Inv :=
  ⟨hs.params, hs.ports, hps, hs.out⟩

theorem State.Inv.presentNext (hs : s.Inv) : s.presentNext.Inv := by
  cases hpend : s.pending with
  | nil => rwa [s.presentNext_held hpend]
  | cons p ps =>
    rw [s.presentNext_next p ps hpend]
    have hall : ∀ q ∈ p :: ps, q.presentable s.params := hpend ▸ hs.pending
    obtain ⟨hp, hps⟩ := List.forall_mem_cons.mp hall
    exact (hs.present hp).lineUp hps

/-! ### The commands -/

theorem State.Inv.encodeTo (hs : s.Inv) {F : FormatDescriptor} (hF : F = binary32 ∨ F = binary64) :
    (encodeTo F s).Inv :=
  (hs.countDraw _).drive (render_legalText hF _)

theorem State.Inv.driveDecoded (hs : s.Inv) (F : FormatDescriptor) (bv : BitVec F.totalBits) (w : Word) :
    (driveDecoded F bv w s).Inv := by
  rcases driveDecoded_cases F bv w s with ⟨-, e⟩ | ⟨-, e⟩ <;> rw [e]
  · exact (hs.countDraw true).drive trivial
  · exact hs.drive trivial

theorem State.Inv.extractFields (hs : s.Inv) (F : FormatDescriptor) : (extractFields F s).Inv := by
  rcases extractFields_cases F s with ⟨k, -, e⟩ | ⟨bv, -, e⟩ <;> rw [e]
  · exact hs.raise k
  · exact hs.drive trivial

/-- Every command answers, and from a state that meets the invariant it answers one that meets it. -/
theorem exec_next_inv (i : Instr) (hs : s.Inv) : ∃ t, exec i s = .next t ∧ t.Inv := by
  cases i with
  | fmtinfoB32 => exact ⟨_, rfl, hs.drive (.inl rfl)⟩
  | fmtinfoB64 => exact ⟨_, rfl, hs.drive (.inr rfl)⟩
  | encodeB32 => exact ⟨_, rfl, hs.encodeTo (.inl rfl)⟩
  | encodeB64 => exact ⟨_, rfl, hs.encodeTo (.inr rfl)⟩
  | decodeB32 =>
    rcases execDecodeB32_cases s with ⟨k, -, e⟩ | ⟨bv, -, e⟩
    · exact ⟨_, e, hs.raise k⟩
    · exact ⟨_, e, hs.driveDecoded ..⟩
  | decodeB64 =>
    rcases execDecodeB64_cases s with ⟨k, -, e⟩ | ⟨bv, -, e⟩
    · exact ⟨_, e, hs.raise k⟩
    · exact ⟨_, e, hs.driveDecoded ..⟩
  | extractB32 => exact ⟨_, rfl, hs.extractFields binary32⟩
  | extractB64 => exact ⟨_, rfl, hs.extractFields binary64⟩
  | classifyB32 =>
    rcases execClassifyB32_cases s with ⟨-, e⟩ | ⟨-, e⟩
    · exact ⟨_, e, hs.drive trivial⟩
    · exact ⟨_, e, hs.raise _⟩
  | classifyB64 => exact ⟨_, rfl, hs.drive trivial⟩

/-- A step answers from every state that meets the invariant, with a state that meets it. -/
theorem step_next_inv (hs : s.Inv) : ∃ t, step s = .next t ∧ t.Inv := by
  rcases step_cases s with ⟨i, -, e⟩ | ⟨_, -, e⟩ <;> rw [e]
  · exact exec_next_inv i hs.presentNext
  · exact ⟨_, rfl, hs.presentNext.raise _⟩

end

/-- Settles O6: presenting the next inputs keeps the invariant, and so does every evaluation, reserved words among
them. -/
theorem stepKeepsTheInvariant : Obligations.StepKeepsTheInvariant := by
  intro s t hs hstep
  obtain ⟨u, hu, hinv⟩ := step_next_inv hs
  obtain rfl : u = t := Host.Outcome.next.inj (hu.symm.trans hstep)
  exact hinv

end Sys2Proof.Machine
end

section
/-! PROOFS. What an evaluation does to the state, said once: it makes a NaN draw or none, drives one outcome, and leaves
all else alone; and what the outcome depends on: the build, the number of draws made before, and the ports the command
reads. The frames and the independence statements follow from these. -/

namespace Sys2Proof.Machine

open Sys2Proof.Claims

/-! ### When a value is NaN -/

theorem Val.isNan_iff (v : Val) : v.isNan = true ↔ v = .nan := by
  cases v <;> simp [Val.isNan]

/-- The last condition of R163: all ones in the exponent, under a fraction that is not zero. -/
theorem classify_eq_nan_iff {w : Nat} (hw : 1 ≤ w) (e : BitVec w) (f : Nat) :
    classify w e f = .nan ↔ e.toNat = 2 ^ w - 1 ∧ f ≠ 0 := by
  have hmax : 2 ≤ 2 ^ w := Nat.le_self_pow (by omega) 2
  have he := e.isLt
  unfold classify
  split_ifs <;> simp <;> omega

/-- The patterns whose value is NaN (R131, R133). -/
theorem val_eq_nan_iff {F : FormatDescriptor} (hF : 1 ≤ F.exponentBits) (bv : BitVec F.totalBits) :
    val F bv = .nan ↔
      (fields F bv).exponent.toNat = 2 ^ F.exponentBits - 1 ∧ (fields F bv).fraction.toNat ≠ 0 := by
  rw [← classify_eq_nan_iff hF, val]
  cases classify F.exponentBits (fields F bv).exponent (fields F bv).fraction.toNat <;> simp

/-- The words whose value is NaN are the NaN words of R76. -/
theorem val_binary64_eq_nan_iff (w : Word) : val binary64 w = .nan ↔ isNanWord w := by
  rw [val_eq_nan_iff (by decide), isNanWord, ne_eq, ne_eq, ← BitVec.toNat_inj, ← BitVec.toNat_inj]
  rfl

/-! ### The four units as functions of the state -/

/-- DECODE of a format, with the word driven for a pattern that is not NaN (R130, R136). -/
def decodeFrom (F : FormatDescriptor) (word : BitVec F.totalBits → Word) (s : State) : State :=
  match parse s.params F s.ports.text with
  | .error k => s.raise k
  | .ok bv => driveDecoded F bv (word bv) s

/-- Everything DECODE can leave (R130, R136). -/
theorem decodeFrom_cases (F : FormatDescriptor) (word : BitVec F.totalBits → Word) (s : State) :
    (∃ k, parse s.params F s.ports.text = .error k ∧ decodeFrom F word s = s.raise k) ∨
    (∃ bv, parse s.params F s.ports.text = .ok bv ∧ decodeFrom F word s = driveDecoded F bv (word bv) s) := by
  unfold decodeFrom
  cases parse s.params F s.ports.text with
  | error k => exact .inl ⟨k, rfl, rfl⟩
  | ok bv => exact .inr ⟨bv, rfl, rfl⟩

theorem exec_decodeB32 (s : State) :
    exec .decodeB32 s =
      .next (decodeFrom binary32 (fun bv => encBits binary64 (false, 0) (val binary32 bv)) s) := by
  unfold decodeFrom
  rcases execDecodeB32_cases s with ⟨k, hk, e⟩ | ⟨bv, hbv, e⟩
  · rw [hk]; exact e
  · rw [hbv]; exact e

theorem exec_decodeB64 (s : State) : exec .decodeB64 s = .next (decodeFrom binary64 id s) := by
  unfold decodeFrom
  rcases execDecodeB64_cases s with ⟨k, hk, e⟩ | ⟨bv, hbv, e⟩
  · rw [hk]; exact e
  · rw [hbv]; exact e

/-! ### The frame -/

/-- An evaluation turned `s` into `t`: a NaN draw when `made`, then an outcome on the ports, and nothing else. -/
def Evaluated (made : Prop) (s t : State) : Prop :=
  ∃ (b : Bool) (r : Result), t = (s.countDraw b).drive r ∧ (b = true ↔ made)

section
variable {made : Prop} {s t : State}

theorem Evaluated.drive (h : ¬ made) (r : Result) : Evaluated made s (s.drive r) :=
  ⟨false, r, rfl, by simp [h]⟩

theorem Evaluated.raise (h : ¬ made) (k : ErrorKind) : Evaluated made s (s.raise k) :=
  Evaluated.drive h _

theorem Evaluated.sameBlock (h : Evaluated made s t) : SameBlock s t := by
  obtain ⟨b, r, rfl, -⟩ := h
  exact ⟨rfl, rfl, rfl⟩

theorem Evaluated.draws (h : Evaluated made s t) :
    (made → t.draws = s.draws + 1) ∧ (¬ made → t.draws = s.draws) := by
  obtain ⟨b, r, rfl, hb⟩ := h
  rw [← hb]
  cases b <;> simp

theorem Evaluated.errPort_isSome (h : Evaluated made s t) : t.errPort.isSome = true := by
  obtain ⟨b, r, rfl, -⟩ := h
  rfl

end

/-- ENCODE draws for a NaN word (R116). -/
theorem evaluated_encodeTo (F : FormatDescriptor) (s : State) :
    Evaluated (isNanWord s.ports.valIn) s (encodeTo F s) :=
  ⟨_, _, rfl, (Val.isNan_iff _).trans (val_binary64_eq_nan_iff _)⟩

/-- DECODE draws for a text that parses to a NaN pattern (R135). -/
theorem evaluated_decodeFrom (F : FormatDescriptor) (word : BitVec F.totalBits → Word) (s : State) :
    Evaluated (∃ bv, parse s.params F s.ports.text = .ok bv ∧ val F bv = .nan) s (decodeFrom F word s) := by
  rcases decodeFrom_cases F word s with ⟨k, hk, e⟩ | ⟨bv, hbv, e⟩
  · rw [e]
    exact .raise (by simp [hk]) k
  · rw [e]
    have hmade : (∃ bv', parse s.params F s.ports.text = .ok bv' ∧ val F bv' = .nan) ↔ (val F bv).isNan = true := by
      simp [hbv, Val.isNan_iff]
    rcases driveDecoded_cases F bv (word bv) s with ⟨hnan, e⟩ | ⟨hnan, e⟩
    · exact ⟨true, _, e, by simp [hmade, hnan]⟩
    · exact ⟨false, _, e, by simp [hmade, hnan]⟩

/-- EXTRACT never draws. -/
theorem evaluated_extractFields (F : FormatDescriptor) (s : State) : Evaluated False s (extractFields F s) := by
  rcases extractFields_cases F s with ⟨k, -, e⟩ | ⟨bv, -, e⟩ <;> rw [e]
  · exact .raise id k
  · exact .drive id _

/-- The frame of every command, from every state. -/
theorem exec_evaluated (i : Instr) (s : State) : ∃ t, exec i s = .next t ∧ Evaluated (makesDraw i s) s t := by
  cases i with
  | fmtinfoB32 => exact ⟨_, rfl, .drive id _⟩
  | fmtinfoB64 => exact ⟨_, rfl, .drive id _⟩
  | encodeB32 => exact ⟨_, rfl, evaluated_encodeTo binary32 s⟩
  | encodeB64 => exact ⟨_, rfl, evaluated_encodeTo binary64 s⟩
  | decodeB32 => exact ⟨_, exec_decodeB32 s, evaluated_decodeFrom ..⟩
  | decodeB64 => exact ⟨_, exec_decodeB64 s, evaluated_decodeFrom ..⟩
  | extractB32 => exact ⟨_, rfl, evaluated_extractFields binary32 s⟩
  | extractB64 => exact ⟨_, rfl, evaluated_extractFields binary64 s⟩
  | classifyB32 =>
    rcases execClassifyB32_cases s with ⟨-, e⟩ | ⟨-, e⟩
    · exact ⟨_, e, .drive id _⟩
    · exact ⟨_, e, .raise id _⟩
  | classifyB64 => exact ⟨_, rfl, .drive id _⟩

/-- The frame of every step, relative to the state after the caller's presentation; a reserved word never draws. -/
theorem step_evaluated (s : State) :
    ∃ (made : Prop) (t : State), step s = .next t ∧ Evaluated made s.presentNext t := by
  rcases step_cases s with ⟨i, -, e⟩ | ⟨_, -, e⟩ <;> rw [e]
  · exact ⟨_, exec_evaluated i s.presentNext⟩
  · exact ⟨False, _, rfl, .raise id _⟩

/-- Settles O8: a step is one presentation and one evaluation, whose frame is `Evaluated`. -/
theorem stepFrame : Obligations.StepFrame := by
  intro s t hstep
  obtain ⟨made, u, hu, hev⟩ := step_evaluated s
  obtain rfl : u = t := Host.Outcome.next.inj (hu.symm.trans hstep)
  obtain ⟨hparams, hports, hpending⟩ := hev.sameBlock
  obtain ⟨hmade, hnot⟩ := hev.draws
  rw [s.presentNext_draws] at hmade hnot
  refine ⟨by simp [hparams], hports, hpending, ?_, hev.errPort_isSome⟩
  by_cases h : made
  · exact .inr (hmade h)
  · exact .inl (hnot h)

/-- Settles O9: the frame of every command, with a draw exactly where its value is NaN. -/
theorem everyCommandCompletesWithItsFrame : Obligations.EveryCommandCompletesWithItsFrame := by
  intro i s
  obtain ⟨t, e, hev⟩ := exec_evaluated i s
  exact ⟨t, e, hev.sameBlock, hev.draws⟩

/-! ### What the outcome depends on -/

/-- The same outcome on the ports, and as many draws made. -/
def SameOut (t t' : State) : Prop := t.out = t'.out ∧ t.draws = t'.draws

section
variable {s s' : State} (hp : s.params = s'.params) (hd : s.draws = s'.draws)

include hd in
theorem SameOut.drive (r : Result) : SameOut (s.drive r) (s'.drive r) := ⟨rfl, hd⟩

include hp hd in
theorem SameOut.raise (k : ErrorKind) : SameOut (s.raise k) (s'.raise k) := ⟨by simp [hp], hd⟩

include hd in
theorem SameOut.encodeTo (F : FormatDescriptor) (hv : s.ports.valIn = s'.ports.valIn) :
    SameOut (encodeTo F s) (encodeTo F s') := by
  obtain ⟨-, -, -, draws, out⟩ := encodeTo_spec F s
  obtain ⟨-, -, -, draws', out'⟩ := encodeTo_spec F s'
  exact ⟨by rw [out, out', hd, hv], by rw [draws, draws', hd, hv]⟩

include hd in
theorem SameOut.driveDecoded (F : FormatDescriptor) (bv : BitVec F.totalBits) (w : Word) :
    SameOut (driveDecoded F bv w s) (driveDecoded F bv w s') := by
  unfold Machine.driveDecoded
  split
  · exact ⟨by simp [hd], by simp [hd]⟩
  · exact .drive hd _

include hp hd in
theorem SameOut.decodeFrom (F : FormatDescriptor) (word : BitVec F.totalBits → Word)
    (ht : s.ports.text = s'.ports.text) : SameOut (decodeFrom F word s) (decodeFrom F word s') := by
  unfold Machine.decodeFrom
  rw [← hp, ← ht]
  split
  · exact .raise hp hd _
  · exact .driveDecoded hd ..

include hp hd in
theorem SameOut.extractFields (F : FormatDescriptor) (ht : s.ports.text = s'.ports.text) :
    SameOut (extractFields F s) (extractFields F s') := by
  unfold Machine.extractFields
  rw [← hp, ← ht]
  split
  · exact .raise hp hd _
  · exact .drive hd _

include hp hd in
/-- CLASSIFY.B32 reads `EXP_IN` and `FRAC_IN` only. -/
theorem sameOutcome_classifyB32 (he : s.ports.expIn = s'.ports.expIn) (hf : s.ports.fracIn = s'.ports.fracIn) :
    SameOutcome .classifyB32 s s' := by
  have hr : s.ports.fieldsInRange binary32 = s'.ports.fieldsInRange binary32 := by
    simp only [Ports.fieldsInRange, he, hf]
  simp only [SameOutcome, exec, execClassifyB32, ← hr, ← he, ← hf]
  split
  · exact ⟨_, _, rfl, rfl, SameOut.drive hd _⟩
  · exact ⟨_, _, rfl, rfl, SameOut.raise hp hd _⟩

include hp hd in
/-- The outcome is a function of the build, the number of draws made before, and the ports the command reads. -/
theorem exec_sameOutcome (i : Instr) (h : agreeOnRead i s.ports s'.ports) : SameOutcome i s s' := by
  cases i with
  | fmtinfoB32 => exact ⟨_, _, rfl, rfl, SameOut.drive hd _⟩
  | fmtinfoB64 => exact ⟨_, _, rfl, rfl, SameOut.drive hd _⟩
  | encodeB32 => exact ⟨_, _, rfl, rfl, SameOut.encodeTo hd binary32 h⟩
  | encodeB64 => exact ⟨_, _, rfl, rfl, SameOut.encodeTo hd binary64 h⟩
  | decodeB32 => exact ⟨_, _, exec_decodeB32 s, exec_decodeB32 s', SameOut.decodeFrom hp hd _ _ h⟩
  | decodeB64 => exact ⟨_, _, exec_decodeB64 s, exec_decodeB64 s', SameOut.decodeFrom hp hd _ _ h⟩
  | extractB32 => exact ⟨_, _, rfl, rfl, SameOut.extractFields hp hd binary32 h⟩
  | extractB64 => exact ⟨_, _, rfl, rfl, SameOut.extractFields hp hd binary64 h⟩
  | classifyB32 =>
    obtain ⟨he, hf⟩ := h
    exact sameOutcome_classifyB32 hp hd he hf
  | classifyB64 =>
    obtain ⟨he, hf⟩ := h
    exact ⟨_, _, rfl, rfl, by simp [he, hf], hd⟩

end

theorem agreeOnRead_refl (i : Instr) (p : Ports) : agreeOnRead i p p := by
  cases i <;> simp [agreeOnRead]

/-- Settles O11: the other presentation is on the same build with as many draws made. -/
theorem unreadPortsAreIgnored : Obligations.UnreadPortsAreIgnored :=
  fun i s q h => exec_sameOutcome (s := s) (s' := { s with ports := q }) rfl rfl i h

/-- Settles O12: earlier outcomes and coming presentations are none of what the outcome is a function of. -/
theorem outcomeIgnoresHistory : Obligations.OutcomeIgnoresHistory :=
  fun i s o ps =>
    exec_sameOutcome (s := s) (s' := { s with out := o, pending := ps }) rfl rfl i (agreeOnRead_refl i s.ports)

/-! ### Power-up, the presentation of a command, the catalog -/

/-- With no outcome on the ports every result port is unspecified (R35, R195). -/
theorem portsDriven_of_out_none {s : State} (h : s.out = none) : portsDriven s = List.replicate 11 false := by
  simp [portsDriven, h, State.txtOutPort, State.txtOutLenPort, State.valOutPort, State.signOutPort, State.expOutPort,
    State.fracOutPort, State.catOutPort, State.fcBiasPort, State.fcExpBitsPort, State.fcFracBitsPort,
    State.fcTotalBitsPort]

theorem powerUp_inv {P : Params} (hP : P.wf) : (State.powerUp P).Inv where
  params := hP
  ports := ⟨List.length_replicate, Nat.zero_le _⟩
  pending := by simp [State.powerUp]
  out := by simp [State.powerUp, State.outLegal]

/-- Settles O1: undriven ports are presentable, and there is no outcome that could be illegal. -/
theorem powerUpMeetsTheInvariant : Obligations.PowerUpMeetsTheInvariant :=
  ⟨powerUp_inv (by decide), fun _ hP => ⟨powerUp_inv hP, rfl, rfl, portsDriven_of_out_none rfl⟩⟩

theorem step_of_decode {s : State} {i : Instr} (h : decode s.presentNext.commandWord = .ok i) :
    step s = exec i s.presentNext := by
  simp only [step, h]

/-- Settles O4: the step of a decoded word, and the two cases of the caller's presentation. -/
theorem stepEvaluatesThePresentedCommand : Obligations.StepEvaluatesThePresentedCommand :=
  ⟨fun _ _ h => step_of_decode h, fun s h => s.presentNext_held h, fun s p ps h => s.presentNext_next p ps h⟩

theorem catalog_admitted : ∀ F ∈ [binary32, binary64], F.admitted := by decide

/-- Settles O14: the two laws are what an admitted descriptor has beside an exponent bit. -/
theorem catalogMeetsItsInvariants : Obligations.CatalogMeetsItsInvariants :=
  fun F hF => (catalog_admitted F hF).2

end Sys2Proof.Machine
end

section
/-! PROOFS. Two steps on one build, with equal inputs on the ports and as many draws made before, have the same
outcome; so an evaluation of held inputs that made no draw is repeated by the next. -/

namespace Sys2Proof.Machine

open Sys2Proof.Claims

theorem step_of_decode_error {s : State} {e : DecodeError} (h : decode s.presentNext.commandWord = .error e) :
    step s = .next (illegalCommand s.presentNext) := by
  simp only [step, h]

/-- The outcome of a step is a function of the build, the number of draws made before, and the inputs presented. -/
theorem step_sameOut {s s' : State} (hp : s.params = s'.params) (hd : s.draws = s'.draws)
    (hports : s.presentNext.ports = s'.presentNext.ports) :
    ∃ t t', step s = .next t ∧ step s' = .next t' ∧ SameOut t t' := by
  have hp' : s.presentNext.params = s'.presentNext.params := by simp [hp]
  have hd' : s.presentNext.draws = s'.presentNext.draws := by simp [hd]
  have hcmd : s.presentNext.commandWord = s'.presentNext.commandWord := congrArg Ports.cmd hports
  cases h : decode s.presentNext.commandWord with
  | ok i =>
    rw [step_of_decode h, step_of_decode (hcmd ▸ h)]
    exact exec_sameOutcome hp' hd' i (hports ▸ agreeOnRead_refl i _)
  | error e =>
    rw [step_of_decode_error h, step_of_decode_error (hcmd ▸ h)]
    exact ⟨_, _, rfl, rfl, SameOut.raise hp' hd' _⟩

/-- Settles O13: the first step leaves the build and the inputs it evaluated, with nothing pending the second evaluates
those again, and where no draw was made it starts from as many draws. -/
theorem heldInputsGiveTheSameOutputs : Obligations.HeldInputsGiveTheSameOutputs := by
  intro s t hstep hpend hdraws
  obtain ⟨hparams, hports, -, -, -⟩ := stepFrame s t hstep
  have hheld : s.presentNext.ports = t.presentNext.ports := by rw [t.presentNext_held hpend, hports]
  obtain ⟨t', u, ht', hu, hout, hdraws'⟩ := step_sameOut hparams.symm hdraws.symm hheld
  obtain rfl : t' = t := Host.Outcome.next.inj (ht'.symm.trans hstep)
  exact ⟨u, hu, hout.symm, hdraws'.symm⟩

end Sys2Proof.Machine
end

section
/-! PROOFS. The encodings: a command word is its two fields, and the decoder inverts the encoder; a pattern is the
number of its three fields; a text of bits spells one pattern, and whitespace is no part of it. -/

namespace Sys2Proof

/-! ### The command word -/

/-- `CMD` as a number: `op` above `fmt` (R60). -/
theorem commandWord_toNat (w : CommandWord) : w.toNat = 2 * (opField w).toNat + (fmtField w).toNat := by
  have hw : w.toNat < 16 := w.isLt
  simp only [opField, fmtField, BitVec.extractLsb'_toNat, Nat.shiftRight_eq_div_pow]
  omega

/-- A command word has no more than its two fields (R60). -/
theorem commandWord_ext {v w : CommandWord} (hop : opField v = opField w) (hfmt : fmtField v = fmtField w) : v = w := by
  apply BitVec.eq_of_toNat_eq
  rw [commandWord_toNat v, commandWord_toNat w, hop, hfmt]

theorem fmtField_zero_or_one (w : CommandWord) : fmtField w = 0#1 ∨ fmtField w = 1#1 :=
  BitVec.eq_zero_or_eq_one _

theorem decode_encode (i : Instr) : decode (encode i) = .ok i := by
  cases i <;> rfl

/-- A reserved word is rejected with its own fields (R64). -/
theorem decode_of_reserved {w : CommandWord} (h : 4 < (opField w).toNat) :
    decode w = .error (.reservedOperation (opField w) (fmtField w)) := by
  unfold decode
  split
  case h_6 => rfl
  all_goals
    rename_i hop
    exact absurd (hop ▸ h) (by decide)

/-- Each row of R62's table has one word. -/
theorem encode_eq_of_decode {w : CommandWord} {i : Instr} (h : decode w = .ok i) : encode i = w := by
  unfold decode at h
  split at h
  case h_6 => cases h
  all_goals
    rename_i hop
    rcases fmtField_zero_or_one w with hfmt | hfmt <;> rw [hfmt] at h <;> cases h <;>
      exact commandWord_ext hop.symm hfmt.symm

/-- The words above the last row of R62's table are those of the reserved operations (R64). -/
theorem reserved_of_nine_lt {w : CommandWord} (h : 9 < w.toNat) : 4 < (opField w).toNat := by
  have hw := commandWord_toNat w
  have hfmt := (fmtField w).isLt
  omega

/-- Settles O2: the words named are the encoder's, or have a reserved `op`. -/
theorem tableWordsDecodeToTheirCommands : Obligations.TableWordsDecodeToTheirCommands :=
  ⟨decode_encode .fmtinfoB32, decode_encode .encodeB64, decode_encode .decodeB32, decode_encode .extractB64,
    decode_encode .classifyB32, decode_encode .classifyB64, decode_of_reserved (by decide),
    decode_of_reserved (by decide)⟩

/-- Settles O3: a word is its two fields, and the decoder reads the table of R62 by them. -/
theorem decodeAndEncodeAgree : Obligations.DecodeAndEncodeAgree :=
  ⟨fun i _ => decode_encode i, fun _ _ h => encode_eq_of_decode h,
    fun _ h => decode_of_reserved (reserved_of_nine_lt h)⟩

namespace Machine

open Sys2Proof.Claims

/-! ### Fields and pattern -/

section
variable {F : FormatDescriptor}

theorem fields_exponent_le (bv : BitVec F.totalBits) : (fields F bv).exponent.toNat ≤ maxExponent F :=
  Nat.le_sub_one_of_lt (fields F bv).exponent.isLt

/-- `uint` of a pattern, by its fields (R71). -/
theorem toNat_eq_fields (h : F.admitted) (bv : BitVec F.totalBits) :
    bv.toNat = (fields F bv).sign.toNat * 2 ^ (F.exponentBits + F.fractionBits) +
      (fields F bv).exponent.toNat * 2 ^ F.fractionBits + (fields F bv).fraction.toNat := by
  have hsign : bv.toNat / 2 ^ (F.exponentBits + F.fractionBits) =
      bv.toNat / 2 ^ F.fractionBits / 2 ^ F.exponentBits := by
    rw [Nat.div_div_eq_div_mul, ← pow_add, add_comm]
  rw [fields_sign_toNat h, fields_exponent_toNat, fields_fraction_toNat, hsign, pow_add, ← mul_assoc, ← add_mul,
    Nat.div_add_mod', Nat.div_add_mod']

theorem pack_fields (h : F.admitted) (bv : BitVec F.totalBits) :
    pack F (fields F bv).sign (fields F bv).exponent.toNat (fields F bv).fraction.toNat = bv := by
  apply BitVec.eq_of_toNat_eq
  rw [pack_toNat h _ (fields_exponent_le bv) (fields F bv).fraction.isLt, ← toNat_eq_fields h]

section
variable (h : F.admitted) (s : Bool) {e f : Nat} (he : e ≤ maxExponent F) (hf : f < 2 ^ F.fractionBits)
include h he hf

/-- Above the fraction field of an assembled pattern stand the sign and the exponent, in it the fraction. -/
theorem pack_div_mod :
    (pack F s e f).toNat / 2 ^ F.fractionBits = s.toNat * 2 ^ F.exponentBits + e ∧
    (pack F s e f).toNat % 2 ^ F.fractionBits = f := by
  rw [Nat.div_mod_unique (Nat.two_pow_pos _), pack_toNat h s he hf]
  exact ⟨by ring, hf⟩

theorem fields_pack_fraction : (fields F (pack F s e f)).fraction.toNat = f := by
  rw [fields_fraction_toNat, (pack_div_mod h s he hf).2]

/-- The two upper fields of an assembled pattern. -/
theorem pack_upper_div_mod :
    (pack F s e f).toNat / 2 ^ F.fractionBits / 2 ^ F.exponentBits = s.toNat ∧
    (pack F s e f).toNat / 2 ^ F.fractionBits % 2 ^ F.exponentBits = e := by
  rw [Nat.div_mod_unique (Nat.two_pow_pos _), (pack_div_mod h s he hf).1]
  exact ⟨by ring, Nat.lt_of_le_sub_one (Nat.two_pow_pos _) he⟩

theorem fields_pack_exponent : (fields F (pack F s e f)).exponent.toNat = e := by
  rw [fields_exponent_toNat, (pack_upper_div_mod h s he hf).2]

theorem fields_pack_sign : (fields F (pack F s e f)).sign = s := by
  apply Function.LeftInverse.injective Bool.ofNat_toNat
  rw [fields_sign_toNat h, add_comm, pow_add, ← Nat.div_div_eq_div_mul, (pack_upper_div_mod h s he hf).1]

end

end

/-- Settles O16: the sign, exponent and fraction are the digits of the pattern's number. -/
theorem fieldsAndPackAreInverse : Obligations.FieldsAndPackAreInverse := by
  intro F h
  refine ⟨fun bv => ⟨pack_fields h bv, ?_, fun hp => ?_⟩, fun s e f he hf => ?_⟩
  · have hN : F.totalBits - 1 = F.exponentBits + F.fractionBits := by have := h.2.1; omega
    rw [hN]
    exact toNat_eq_fields h bv
  · rw [fields_fraction_toNat, hp, pow_zero, Nat.mod_one]
  · have hf' : f < 2 ^ F.fractionBits := Nat.lt_of_le_sub_one (Nat.two_pow_pos _) hf
    exact ⟨fields_pack_sign h s he hf', fields_pack_exponent h s he hf', fields_pack_fraction h s he hf'⟩

/-! ### Pattern and text -/

section
variable {F : FormatDescriptor}

/-- Reading back the bits of a rendered pattern (R68, R69). -/
theorem patternOf_render (bv : BitVec F.totalBits) : patternOf F (render F bv) = bv := by
  apply BitVec.eq_of_getLsbD_eq
  intro i hi
  have hk : F.totalBits - 1 - i < (render F bv).length := by rw [render_length]; omega
  have hi' : F.totalBits - 1 - (F.totalBits - 1 - i) = i := by omega
  have hbit := patternOf_getLsbD (render_length bv) (F.totalBits - 1 - i) hk
  rwa [render_getElem, charBit_bitChar, hi'] at hbit

/-- Rendering the pattern of a text of bits (R68, R69). -/
theorem render_patternOf {u : Text} (hlen : u.length = F.totalBits) (hbits : u.all isBit = true) :
    render F (patternOf F u) = u := by
  apply List.ext_getElem (by rw [render_length, hlen])
  intro k hk hku
  rw [render_getElem, patternOf_getLsbD hlen k hku,
    bitChar_charBit (List.all_eq_true.mp hbits _ (List.getElem_mem hku))]

/-- A text of bits of the format's length parses to its pattern (R68). -/
theorem parse_eq_ok {P : Params} {t : Text} (hlen : (strip P t).length = F.totalBits)
    (hbits : (strip P t).all isBit = true) : parse P F t = .ok (patternOf F (strip P t)) := by
  rcases parse_cases P F t with ⟨hne, -⟩ | ⟨-, hnot, -⟩ | ⟨-, -, e⟩
  · exact absurd hlen hne
  · exact absurd (hbits.symm.trans hnot) (by decide)
  · exact e

theorem parse_render {P : Params} (hP : P.wf) (bv : BitVec F.totalBits) : parse P F (render F bv) = .ok bv := by
  have hstrip : strip P (render F bv) = render F bv := strip_bits hP (render_all_isBit bv)
  rw [parse_eq_ok (by rw [hstrip, render_length]) (by rw [hstrip, render_all_isBit]), hstrip, patternOf_render]

theorem render_of_parse {P : Params} {t : Text} {bv : BitVec F.totalBits} (h : parse P F t = .ok bv) :
    render F bv = strip P t := by
  obtain ⟨hlen, hbits, rfl⟩ := parse_ok h
  exact render_patternOf hlen hbits

end

/-- Settles O17: a rendered pattern has no whitespace, and position `k` of a text is bit `N-1-k` of its pattern. -/
theorem parseAndRenderAreInverse : Obligations.ParseAndRenderAreInverse :=
  fun _ _ hP => ⟨parse_render hP, fun _ _ h => render_of_parse h⟩

/-! ### Whitespace in a text operand -/

section
variable {s s' : State} (hp : s.params = s'.params) (hd : s.draws = s'.draws)
include hp hd

/-- DECODE reads of its text what `parse` answers. -/
theorem sameOut_decodeFrom_of_parse (F : FormatDescriptor) (word : BitVec F.totalBits → Word)
    (h : parse s.params F s.ports.text = parse s'.params F s'.ports.text) :
    SameOut (decodeFrom F word s) (decodeFrom F word s') := by
  unfold decodeFrom
  rw [← h]
  split
  · exact .raise hp hd _
  · exact .driveDecoded hd ..

/-- EXTRACT reads of its text what `parse` answers. -/
theorem sameOut_extractFields_of_parse (F : FormatDescriptor)
    (h : parse s.params F s.ports.text = parse s'.params F s'.ports.text) :
    SameOut (extractFields F s) (extractFields F s') := by
  unfold extractFields
  rw [← h]
  split
  · exact .raise hp hd _
  · exact .drive hd _

/-- A text command answers alike for two texts that are one text when stripped (R43). -/
theorem textCommand_sameOutcome {c : Instr × FormatDescriptor} (hc : c ∈ textCommands)
    (h : strip s.params s.ports.text = strip s.params s'.ports.text) : SameOutcome c.1 s s' := by
  have hparse (F : FormatDescriptor) : parse s.params F s.ports.text = parse s'.params F s'.ports.text :=
    hp ▸ parse_congr h
  fin_cases hc
  · exact ⟨_, _, exec_decodeB32 s, exec_decodeB32 s', sameOut_decodeFrom_of_parse hp hd _ _ (hparse _)⟩
  · exact ⟨_, _, exec_decodeB64 s, exec_decodeB64 s', sameOut_decodeFrom_of_parse hp hd _ _ (hparse _)⟩
  · exact ⟨_, _, rfl, rfl, sameOut_extractFields_of_parse hp hd binary32 (hparse _)⟩
  · exact ⟨_, _, rfl, rfl, sameOut_extractFields_of_parse hp hd binary64 (hparse _)⟩

end

/-- Settles O18: the whitespace character is stripped, and the text commands depend on the stripped text. -/
theorem whitespaceAnywhereIsIgnored : Obligations.WhitespaceAnywhereIsIgnored := by
  intro c hc s p q u v ch hch hpt hqt
  have hstrip : strip s.params p.text = strip s.params q.text := by
    rw [hpt, hqt, strip_append, strip_append, strip_cons_whitespace hch]
  exact textCommand_sameOutcome (s := { s with ports := p }) (s' := { s with ports := q }) rfl rfl hc hstrip

end Machine

end Sys2Proof
end

section
/-! PROOFS. A command that drives one outcome which is no error succeeds with its frame; FMTINFO drives the descriptor
of its format, whose ports read it out field by field. -/

namespace Sys2Proof.Machine

open Sys2Proof.Claims

/-- Driving an outcome that is no error changes nothing else, so it is a success (R20, R170). -/
theorem succeeds_of_exec_drive {i : Instr} {s : State} {r : Result} {post : State → Prop}
    (hexec : exec i s = .next (s.drive r)) (herr : r.errCode = 0#3) (hpost : post (s.drive r)) :
    Succeeds i s post := by
  have hsucceeded : (s.drive r).succeeded := (State.drive_errPort r s).trans (congrArg some herr)
  exact ⟨s.drive r, hexec, hsucceeded, ⟨rfl, rfl, rfl⟩, s.drive_draws r, hpost⟩

section
variable (F : FormatDescriptor) (s : State)

@[simp] theorem fcBiasPort_drive_describe : (s.drive (describe F)).fcBiasPort = some (BitVec.ofNat 10 F.bias) := rfl

@[simp] theorem fcExpBitsPort_drive_describe :
    (s.drive (describe F)).fcExpBitsPort = some (BitVec.ofNat 4 F.exponentBits) := rfl

@[simp] theorem fcFracBitsPort_drive_describe :
    (s.drive (describe F)).fcFracBitsPort = some (BitVec.ofNat 6 F.fractionBits) := rfl

@[simp] theorem fcTotalBitsPort_drive_describe :
    (s.drive (describe F)).fcTotalBitsPort = some (BitVec.ofNat 7 F.totalBits) := rfl

end

theorem exec_fmtinfoB32 (s : State) : exec .fmtinfoB32 s = .next (s.drive (describe binary32)) := rfl

theorem exec_fmtinfoB64 (s : State) : exec .fmtinfoB64 s = .next (s.drive (describe binary64)) := rfl

/-- Settles O15: the two words are the encoder's, and each command drives the descriptor of its format. -/
theorem fmtinfoReadsOutTheCatalog : Obligations.FmtinfoReadsOutTheCatalog := by
  refine ⟨decode_encode .fmtinfoB32, decode_encode .fmtinfoB64, fun s => ⟨?_, ?_⟩⟩
  · exact succeeds_of_exec_drive (exec_fmtinfoB32 s) rfl (by simp)
  · exact succeeds_of_exec_drive (exec_fmtinfoB64 s) rfl (by simp)

end Sys2Proof.Machine
end

section
/-! PROOFS. The finite patterns of one sign as one scale of magnitudes. The exponent and fraction fields together are one
natural number, the `ef` of R117. `ef` is cut into a binade `j` and a number `n` of quanta `2^(emin + j - p)`, as R117
cuts a magnitude, and the magnitudes rise with `ef`. -/

namespace Sys2Proof.Machine

variable {F : FormatDescriptor}

/-! ### The quantum of a binade -/

/-- The quantum `2^(E-p)` of the binade of true exponent `E = emin + j` (R117). -/
def quantum (F : FormatDescriptor) (j : Nat) : ℚ := pow2 (minExponent F + j - F.fractionBits)

theorem quantum_pos (F : FormatDescriptor) (j : Nat) : 0 < quantum F j := pow2_pos _

theorem quantum_add (F : FormatDescriptor) (j k : Nat) : quantum F (j + k) = 2 ^ k * quantum F j := by
  have h : minExponent F + ((j + k : Nat) : Int) - F.fractionBits =
      (k : Int) + (minExponent F + j - F.fractionBits) := by push_cast; ring
  rw [quantum, h, pow2_add, pow2_natCast, quantum]
  push_cast
  rfl

theorem quantum_succ (F : FormatDescriptor) (j : Nat) : quantum F (j + 1) = 2 * quantum F j := by
  rw [quantum_add, pow_one]

/-- `2^p` quanta are the lower end of the binade, `2^E`. -/
theorem two_pow_mul_quantum (F : FormatDescriptor) (j : Nat) :
    2 ^ F.fractionBits * quantum F j = pow2 (minExponent F + j) := by
  have h : minExponent F + (j : Int) = (F.fractionBits : Int) + (minExponent F + j - F.fractionBits) := by ring
  rw [h, pow2_add, pow2_natCast, quantum]
  push_cast
  rfl

/-- `2^(p+1)` quanta are the lower end of the next binade. -/
theorem two_pow_succ_mul_quantum (F : FormatDescriptor) (j : Nat) :
    2 ^ (F.fractionBits + 1) * quantum F j = pow2 (minExponent F + j + 1) := by
  have h := two_pow_mul_quantum F (j + 1)
  rw [quantum_succ] at h
  rw [pow_succ, mul_assoc, h]
  congr 1
  push_cast
  ring

/-! ### The magnitude of an `ef` -/

/-- The binade an `ef` lies in, counted from the one the subnormals share with the smallest normals. -/
def efBinade (F : FormatDescriptor) (ef : Nat) : Nat := ef / 2 ^ F.fractionBits - 1

/-- The quanta in the magnitude of an `ef`. -/
def efUnits (F : FormatDescriptor) (ef : Nat) : Nat := ef - efBinade F ef * 2 ^ F.fractionBits

/-- The magnitude of the finite pattern whose exponent and fraction fields are `ef`. -/
def efMagnitude (F : FormatDescriptor) (ef : Nat) : ℚ := efUnits F ef * quantum F (efBinade F ef)

theorem efBinade_mul_add_efUnits (F : FormatDescriptor) (ef : Nat) :
    efBinade F ef * 2 ^ F.fractionBits + efUnits F ef = ef := by
  have h : efBinade F ef * 2 ^ F.fractionBits ≤ ef :=
    (Nat.mul_le_mul_right _ (Nat.sub_le _ 1)).trans (Nat.div_mul_le_self ef _)
  unfold efUnits
  omega

/-- `n` quanta of binade `j` are a number in the form R117 gives it: below the next binade, and above the binade before
unless there is none. -/
def InBinade (F : FormatDescriptor) (j n : Nat) : Prop :=
  n < 2 ^ (F.fractionBits + 1) ∧ (j = 0 ∨ 2 ^ F.fractionBits ≤ n)

theorem inBinade_efUnits (F : FormatDescriptor) (ef : Nat) : InBinade F (efBinade F ef) (efUnits F ef) := by
  have hdm := Nat.div_add_mod' ef (2 ^ F.fractionBits)
  have hlt := Nat.mod_lt ef (Nat.two_pow_pos F.fractionBits)
  have hsum := efBinade_mul_add_efUnits F ef
  rw [InBinade, pow_succ]
  cases he : ef / 2 ^ F.fractionBits with
  | zero =>
    simp only [efBinade, he, zero_mul, zero_add, Nat.zero_sub] at hdm hsum ⊢
    exact ⟨by omega, .inl trivial⟩
  | succ j =>
    simp only [efBinade, he, add_mul, one_mul, Nat.add_sub_cancel] at hdm hsum ⊢
    exact ⟨by omega, .inr (by omega)⟩

/-- A number in its form is read back by the division of `efBinade`. -/
theorem efBinade_of_inBinade {j n : Nat} (h : InBinade F j n) : efBinade F (j * 2 ^ F.fractionBits + n) = j := by
  obtain ⟨hlt, hj⟩ := h
  have hpos := Nat.two_pow_pos F.fractionBits
  rw [pow_succ] at hlt
  rw [efBinade, add_comm, Nat.add_mul_div_right _ _ hpos]
  by_cases hn : n < 2 ^ F.fractionBits
  · rw [Nat.div_eq_of_lt hn]
    omega
  · have h1 : n / 2 ^ F.fractionBits = 1 := (Nat.div_eq_iff hpos).mpr (by omega)
    rw [h1]
    omega

theorem efMagnitude_of_inBinade {j n : Nat} (h : InBinade F j n) :
    efMagnitude F (j * 2 ^ F.fractionBits + n) = n * quantum F j := by
  rw [efMagnitude, efUnits, efBinade_of_inBinade h, Nat.add_sub_cancel_left]

/-- A carry out of a binade gives the first number of the next one: `2^(p+1)` quanta are `2^p` of the doubled quantum. -/
theorem efMagnitude_carry (F : FormatDescriptor) (j : Nat) :
    efMagnitude F (j * 2 ^ F.fractionBits + 2 ^ (F.fractionBits + 1)) =
      (2 ^ (F.fractionBits + 1) : Nat) * quantum F j := by
  have hin : InBinade F (j + 1) (2 ^ F.fractionBits) := ⟨Nat.pow_lt_pow_right (by omega) (by omega), .inr le_rfl⟩
  have hef : j * 2 ^ F.fractionBits + 2 ^ (F.fractionBits + 1) = (j + 1) * 2 ^ F.fractionBits + 2 ^ F.fractionBits := by
    ring
  rw [hef, efMagnitude_of_inBinade hin, quantum_succ, pow_succ]
  push_cast
  ring

/-- The magnitude of an `ef` put together from a binade and quanta, the rounding carry included (R117). -/
theorem efMagnitude_of_units {j n : Nat} (hn : n ≤ 2 ^ (F.fractionBits + 1)) (hj : j = 0 ∨ 2 ^ F.fractionBits ≤ n) :
    efMagnitude F (j * 2 ^ F.fractionBits + n) = n * quantum F j := by
  rcases hn.lt_or_eq with hlt | rfl
  · exact efMagnitude_of_inBinade ⟨hlt, hj⟩
  · exact efMagnitude_carry F j

@[simp] theorem efMagnitude_zero (F : FormatDescriptor) : efMagnitude F 0 = 0 := by
  simp [efMagnitude, efUnits]

/-- The next `ef` is one quantum of its own binade further. -/
theorem efMagnitude_succ (F : FormatDescriptor) (ef : Nat) :
    efMagnitude F (ef + 1) = efMagnitude F ef + quantum F (efBinade F ef) := by
  obtain ⟨hlt, hj⟩ := inBinade_efUnits F ef
  have hef : ef + 1 = efBinade F ef * 2 ^ F.fractionBits + (efUnits F ef + 1) := by
    rw [← add_assoc, efBinade_mul_add_efUnits]
  have hcut := congrArg (efMagnitude F) hef
  rw [efMagnitude_of_units hlt (hj.imp_right Nat.le_succ_of_le)] at hcut
  rw [hcut, efMagnitude]
  push_cast
  ring

theorem efMagnitude_strictMono (F : FormatDescriptor) : StrictMono (efMagnitude F) := by
  refine strictMono_nat_of_lt_succ fun ef => ?_
  rw [efMagnitude_succ]
  exact lt_add_of_pos_right _ (quantum_pos F _)

theorem efMagnitude_pos {ef : Nat} (h : ef ≠ 0) : 0 < efMagnitude F ef :=
  (efMagnitude_zero F).symm.trans_lt (efMagnitude_strictMono F (Nat.pos_of_ne_zero h))

/-- The magnitude of an `ef` is below the upper end of its binade. -/
theorem efMagnitude_lt (F : FormatDescriptor) (ef : Nat) :
    efMagnitude F ef < pow2 (minExponent F + efBinade F ef + 1) := by
  rw [← two_pow_succ_mul_quantum]
  exact mul_lt_mul_of_pos_right (by exact_mod_cast (inBinade_efUnits F ef).1) (quantum_pos F _)

/-! ### The value of a pattern by its sign and its `ef` -/

/-- The `ef` of the infinities: all ones in the exponent, zeros in the fraction (R115). -/
def efInf (F : FormatDescriptor) : Nat := maxExponent F * 2 ^ F.fractionBits

/-- The exponent and fraction fields of a pattern as one natural number (R117). -/
def efOf (F : FormatDescriptor) (bv : BitVec F.totalBits) : Nat :=
  (fields F bv).exponent.toNat * 2 ^ F.fractionBits + (fields F bv).fraction.toNat

/-- The pattern of a sign and an `ef`. -/
def ofEf (F : FormatDescriptor) (s : Bool) (ef : Nat) : BitVec F.totalBits :=
  pack F s (ef / 2 ^ F.fractionBits) (ef % 2 ^ F.fractionBits)

/-- The value of the patterns of a sign and an `ef` (R131). -/
def efVal (F : FormatDescriptor) (s : Bool) (ef : Nat) : Val :=
  if ef = 0 then .zero s
  else if ef < efInf F then .fin s (efMagnitude F ef)
  else if ef = efInf F then .inf s
  else .nan

section
variable {ef : Nat} (h : ef ≤ efInf F)
include h

theorem div_le_maxExponent : ef / 2 ^ F.fractionBits ≤ maxExponent F :=
  Nat.div_le_of_le_mul (by rwa [mul_comm])

variable (hF : F.admitted) (s : Bool)
include hF

theorem fields_ofEf_sign : (fields F (ofEf F s ef)).sign = s :=
  fields_pack_sign hF s (div_le_maxExponent h) (Nat.mod_lt _ (Nat.two_pow_pos _))

theorem efOf_ofEf : efOf F (ofEf F s ef) = ef := by
  have hf : ef % 2 ^ F.fractionBits < 2 ^ F.fractionBits := Nat.mod_lt _ (Nat.two_pow_pos _)
  rw [efOf, ofEf, fields_pack_exponent hF s (div_le_maxExponent h) hf,
    fields_pack_fraction hF s (div_le_maxExponent h) hf, Nat.div_add_mod']

/-- `uint` of the pattern of a sign and an `ef` (R71). -/
theorem ofEf_toNat : (ofEf F s ef).toNat = s.toNat * 2 ^ (F.exponentBits + F.fractionBits) + ef := by
  rw [ofEf, pack_toNat hF s (div_le_maxExponent h) (Nat.mod_lt _ (Nat.two_pow_pos _)), add_assoc, Nat.div_add_mod']

end

/-- A pattern is that of its sign and its `ef`. -/
theorem ofEf_efOf (hF : F.admitted) (bv : BitVec F.totalBits) : ofEf F (fields F bv).sign (efOf F bv) = bv := by
  have hsum : (fields F bv).fraction.toNat + 2 ^ F.fractionBits * (fields F bv).exponent.toNat = efOf F bv := by
    rw [efOf]
    ring
  obtain ⟨hdiv, hmod⟩ := (Nat.div_mod_unique (Nat.two_pow_pos F.fractionBits)).mpr ⟨hsum, (fields F bv).fraction.isLt⟩
  rw [ofEf, hdiv, hmod, pack_fields hF]

theorem ofEf_zero (F : FormatDescriptor) (s : Bool) : ofEf F s 0 = pack F s 0 0 := by
  simp [ofEf]

theorem ofEf_efInf (F : FormatDescriptor) (s : Bool) : ofEf F s (efInf F) = pack F s (maxExponent F) 0 := by
  simp [ofEf, efInf]

/-- The subnormal magnitude of R131 on the scale of `ef`. -/
theorem subnormalMagnitude_eq_efMagnitude {f : Nat} (hf : f < 2 ^ F.fractionBits) :
    subnormalMagnitude F f = efMagnitude F f := by
  have hin : InBinade F 0 f := ⟨hf.trans (Nat.pow_lt_pow_right (by omega) (by omega)), .inl rfl⟩
  have hmag := efMagnitude_of_inBinade hin
  rw [zero_mul, zero_add] at hmag
  rw [hmag, subnormalMagnitude_eq, quantum, minExponent, Nat.cast_zero, add_zero]

/-- The normal magnitude of R131 on the scale of `ef`. -/
theorem normalMagnitude_eq_efMagnitude {e f : Nat} (he : e ≠ 0) (hf : f < 2 ^ F.fractionBits) :
    normalMagnitude F e f = efMagnitude F (e * 2 ^ F.fractionBits + f) := by
  obtain ⟨j, rfl⟩ := Nat.exists_eq_succ_of_ne_zero he
  have hin : InBinade F j (2 ^ F.fractionBits + f) := ⟨by rw [pow_succ]; omega, .inr (by omega)⟩
  have hef : j.succ * 2 ^ F.fractionBits + f = j * 2 ^ F.fractionBits + (2 ^ F.fractionBits + f) := by
    rw [Nat.succ_mul, add_assoc]
  have hexp : ((j.succ : Nat) : Int) - F.bias - F.fractionBits = minExponent F + j - F.fractionBits := by
    rw [minExponent]; push_cast; ring
  rw [hef, efMagnitude_of_inBinade hin, normalMagnitude_eq, quantum, hexp]

/-- An `ef` below that of the infinities has not all ones in its exponent. -/
theorem ef_lt_efInf_iff {e f : Nat} (hf : f < 2 ^ F.fractionBits) :
    e * 2 ^ F.fractionBits + f < efInf F ↔ e < maxExponent F := by
  have hdiv : (e * 2 ^ F.fractionBits + f) / 2 ^ F.fractionBits = e := by
    rw [add_comm, Nat.add_mul_div_right _ _ (Nat.two_pow_pos _), Nat.div_eq_of_lt hf, zero_add]
  rw [efInf, ← Nat.div_lt_iff_lt_mul (Nat.two_pow_pos _), hdiv]

/-- `val` of R131, by the sign and the `ef` of the pattern. -/
theorem val_eq_efVal (hF : F.admitted) (bv : BitVec F.totalBits) :
    val F bv = efVal F (fields F bv).sign (efOf F bv) := by
  have hf := (fields F bv).fraction.isLt
  have he := fields_exponent_le bv
  have hmax : 1 ≤ maxExponent F := by rw [maxExponent_eq hF]; omega
  have hlt := ef_lt_efInf_iff (F := F) (e := (fields F bv).exponent.toNat) hf
  rw [efVal, efOf]
  unfold val classify
  rw [← maxExponent]
  by_cases he0 : (fields F bv).exponent.toNat = 0
  · have hfin : (fields F bv).fraction.toNat < efInf F := by simpa [he0] using hlt.mpr (by omega)
    by_cases hf0 : (fields F bv).fraction.toNat = 0
    · simp [he0, hf0]
    · simp [he0, hf0, hfin, subnormalMagnitude_eq_efMagnitude hf]
  · by_cases hm : (fields F bv).exponent.toNat < maxExponent F
    · simp [he0, hm, hlt, normalMagnitude_eq_efMagnitude he0 hf]
    · have hem : (fields F bv).exponent.toNat = maxExponent F := by omega
      have h1 : maxExponent F ≠ 0 := by omega
      by_cases hf0 : (fields F bv).fraction.toNat = 0
      · simp [hem, hf0, efInf, h1]
      · simp [hem, hf0, efInf, h1]

/-- The value of a pattern put together (R131). -/
theorem val_ofEf (hF : F.admitted) (s : Bool) {ef : Nat} (h : ef ≤ efInf F) : val F (ofEf F s ef) = efVal F s ef := by
  rw [val_eq_efVal hF, fields_ofEf_sign h hF, efOf_ofEf h hF]

section
variable (F) (s : Bool)

@[simp] theorem efVal_zero : efVal F s 0 = .zero s := rfl

theorem efVal_finite {ef : Nat} (h0 : ef ≠ 0) (h : ef < efInf F) : efVal F s ef = .fin s (efMagnitude F ef) := by
  rw [efVal, if_neg h0, if_pos h]

end

theorem efInf_ne_zero (hF : F.admitted) : efInf F ≠ 0 := by
  have h := maxExponent_eq hF
  exact Nat.mul_ne_zero (by omega) (Nat.two_pow_pos _).ne'

theorem efVal_efInf (hF : F.admitted) (s : Bool) : efVal F s (efInf F) = .inf s := by
  rw [efVal, if_neg (efInf_ne_zero hF), if_neg (lt_irrefl _), if_pos rfl]

/-- A value other than NaN has an `ef` up to that of the infinities. -/
theorem ef_le_of_val_ne_nan (hF : F.admitted) {bv : BitVec F.totalBits} (h : val F bv ≠ .nan) :
    efOf F bv ≤ efInf F := by
  by_contra hgt
  refine h ?_
  rw [val_eq_efVal hF, efVal, if_neg (by omega), if_neg (by omega), if_neg (by omega)]

end Sys2Proof.Machine
end

section
/-! PROOFS. What `enc_bits` does to a positive magnitude (R117), on the scale of `ef`: the `ef` of a magnitude is the
nearest one, rising with the magnitude, and the magnitude of an `ef` has that `ef` again. -/

namespace Sys2Proof.Machine

variable {F : FormatDescriptor}

/-! ### The binade of a magnitude -/

/-- The binade R117 represents a magnitude in, counted as `efBinade` counts. -/
def workBinade (F : FormatDescriptor) (a : ℚ) : Nat := (workExponent F a - minExponent F).toNat

theorem workExponent_eq (F : FormatDescriptor) (a : ℚ) : workExponent F a = minExponent F + workBinade F a := by
  have h : minExponent F ≤ workExponent F a := le_max_right _ _
  rw [workBinade]
  omega

theorem roundedUnits_eq (F : FormatDescriptor) (a : ℚ) :
    roundedUnits F a = rne (a / quantum F (workBinade F a)) := by
  rw [roundedUnits, workExponent_eq, quantum]

theorem fieldNumber_eq (F : FormatDescriptor) (a : ℚ) :
    fieldNumber F a = workBinade F a * 2 ^ F.fractionBits + roundedUnits F a := rfl

/-- A magnitude is below the upper end of its binade, and above the lower end unless that binade is the lowest. -/
theorem workBinade_spec {a : ℚ} (ha : 0 < a) :
    a < pow2 (minExponent F + workBinade F a + 1) ∧
    (workBinade F a = 0 ∨ pow2 (minExponent F + workBinade F a) ≤ a) := by
  obtain ⟨hlo, hhi⟩ := floorLog2_spec ha
  rw [← workExponent_eq]
  constructor
  · exact hhi.trans_le (pow2_le_pow2.mpr (Int.add_le_add_right (le_max_left _ _) 1))
  · rcases le_total (floorLog2 a) (minExponent F) with h | h
    · left
      rw [workBinade, workExponent, max_eq_right h, sub_self, Int.toNat_zero]
    · right
      rwa [workExponent, max_eq_left h]

theorem workBinade_le_of_lt {a : ℚ} {j : Nat} (ha : 0 < a) (h : a < pow2 (minExponent F + j + 1)) :
    workBinade F a ≤ j := by
  rcases (workBinade_spec (F := F) ha).2 with h0 | hlo
  · omega
  · have := pow2_lt_pow2.mp (hlo.trans_lt h)
    omega

/-- It is the only such binade. -/
theorem workBinade_unique {a : ℚ} {j : Nat} (ha : 0 < a) (hhi : a < pow2 (minExponent F + j + 1))
    (hlo : j = 0 ∨ pow2 (minExponent F + j) ≤ a) : workBinade F a = j := by
  refine le_antisymm (workBinade_le_of_lt ha hhi) ?_
  rcases hlo with rfl | hlo
  · exact Nat.zero_le _
  · have := pow2_lt_pow2.mp (hlo.trans_lt (workBinade_spec (F := F) ha).1)
    omega

theorem workBinade_mono {a b : ℚ} (ha : 0 < a) (h : a ≤ b) : workBinade F a ≤ workBinade F b := by
  have hmax : workExponent F a ≤ workExponent F b := max_le_max_right _ (floorLog2_mono ha h)
  unfold workBinade
  omega

/-! ### Rounding in the binade -/

section
variable {a : ℚ} (ha : 0 < a)
include ha

/-- The units rounded stay in the binade, or are the first of the next one. -/
theorem roundedUnits_bounds :
    roundedUnits F a ≤ 2 ^ (F.fractionBits + 1) ∧
    (workBinade F a = 0 ∨ 2 ^ F.fractionBits ≤ roundedUnits F a) := by
  obtain ⟨hhi, hlo⟩ := workBinade_spec (F := F) ha
  have hq := quantum_pos F (workBinade F a)
  have hx : 0 ≤ a / quantum F (workBinade F a) := (div_pos ha hq).le
  rw [← two_pow_succ_mul_quantum, ← div_lt_iff₀ hq] at hhi
  rw [← two_pow_mul_quantum, ← le_div_iff₀ hq] at hlo
  rw [roundedUnits_eq]
  constructor
  · have h := rne_mono hx hhi.le
    rwa [← Nat.cast_two, ← Nat.cast_pow, rne_natCast] at h
  · refine hlo.imp_right fun hlo => ?_
    have h := rne_mono (by positivity) hlo
    rwa [← Nat.cast_two, ← Nat.cast_pow, rne_natCast] at h

/-- The magnitude of the `ef` a magnitude is rounded to is the number of quanta it is rounded to. -/
theorem efMagnitude_fieldNumber :
    efMagnitude F (fieldNumber F a) = roundedUnits F a * quantum F (workBinade F a) := by
  obtain ⟨hhi, hlo⟩ := roundedUnits_bounds (F := F) ha
  rw [fieldNumber_eq, efMagnitude_of_units hhi hlo]

omit ha in
/-- The distance to a number of quanta is that many quanta. -/
theorem abs_units_sub (a n : ℚ) :
    |n * quantum F (workBinade F a) - a| =
      |n - a / quantum F (workBinade F a)| * quantum F (workBinade F a) := by
  have hq := quantum_pos F (workBinade F a)
  rw [← abs_of_pos hq, ← abs_mul, abs_of_pos hq, sub_mul, div_mul_cancel₀ _ hq.ne']

/-- Rounding is within half a quantum (R124). -/
theorem abs_efMagnitude_fieldNumber_sub_le :
    |efMagnitude F (fieldNumber F a) - a| ≤ quantum F (workBinade F a) / 2 := by
  have hq := quantum_pos F (workBinade F a)
  have h := abs_rne_sub_le (div_pos ha hq).le
  rw [efMagnitude_fieldNumber ha, abs_units_sub, roundedUnits_eq]
  linarith [mul_le_mul_of_nonneg_right h hq.le]

/-- A magnitude that is a number of quanta in the form of R117 is its own rounding. -/
theorem fieldNumber_of_units {j n : Nat} (hn : InBinade F j n) (haj : a = n * quantum F j) :
    fieldNumber F a = j * 2 ^ F.fractionBits + n := by
  obtain ⟨hlt, hj⟩ := hn
  have hq := quantum_pos F j
  have hbin : workBinade F a = j := by
    apply workBinade_unique ha
    · rw [haj, ← two_pow_succ_mul_quantum]
      exact mul_lt_mul_of_pos_right (by exact_mod_cast hlt) hq
    · refine hj.imp_right fun hj => ?_
      rw [haj, ← two_pow_mul_quantum]
      exact mul_le_mul_of_nonneg_right (by exact_mod_cast hj) hq.le
  rw [fieldNumber_eq, roundedUnits_eq, hbin, haj, mul_div_cancel_right₀ _ hq.ne', rne_natCast]

end

/-- Rounding the magnitude of an `ef` gives the `ef` back (R118). -/
theorem fieldNumber_efMagnitude {ef : Nat} (h : ef ≠ 0) : fieldNumber F (efMagnitude F ef) = ef := by
  rw [fieldNumber_of_units (efMagnitude_pos h) (inBinade_efUnits F ef) rfl, efBinade_mul_add_efUnits]

/-- Rounding keeps the order of magnitudes (R124): within a binade by `rne`, and each binade's numbers are above those of
the binades before. -/
theorem fieldNumber_mono {a b : ℚ} (ha : 0 < a) (h : a ≤ b) : fieldNumber F a ≤ fieldNumber F b := by
  have hb := ha.trans_le h
  have hq := quantum_pos F (workBinade F b)
  rw [fieldNumber_eq, fieldNumber_eq]
  rcases (workBinade_mono (F := F) ha h).lt_or_eq with hlt | heq
  · have hhi := (roundedUnits_bounds (F := F) ha).1
    have hlo := (roundedUnits_bounds (F := F) hb).2.resolve_left (by omega)
    have hstep : (workBinade F a + 1) * 2 ^ F.fractionBits ≤ workBinade F b * 2 ^ F.fractionBits :=
      Nat.mul_le_mul_right _ hlt
    rw [pow_succ] at hhi
    rw [add_mul, one_mul] at hstep
    omega
  · rw [roundedUnits_eq, roundedUnits_eq, heq]
    exact Nat.add_le_add_left
      (rne_mono (div_pos ha hq).le (div_le_div_of_nonneg_right h hq.le)) _

/-! ### The pattern of a value by its sign and `ef` -/

/-- `enc_bits` of a finite value is the pattern of its sign and its `ef`, or the infinity of its sign (R117, D12). -/
theorem encFinite_eq_ofEf (F : FormatDescriptor) (s : Bool) (a : ℚ) :
    encFinite F s a = ofEf F s (min (fieldNumber F a) (efInf F)) := by
  unfold encFinite
  dsimp only
  rw [← efInf]
  split
  · next h => rw [min_eq_right h, ofEf_efInf]
  · next h => rw [min_eq_left (by omega)]; rfl

/-- The `ef` of the encoding of a value that is not NaN (R114, R115, R117). -/
def encEf (F : FormatDescriptor) : Val → Nat
  | .zero _ => 0
  | .fin _ a => min (fieldNumber F a) (efInf F)
  | .inf _ => efInf F
  | .nan => efInf F

theorem encEf_le (F : FormatDescriptor) (v : Val) : encEf F v ≤ efInf F := by
  cases v with
  | zero s => exact Nat.zero_le _
  | fin s a => exact min_le_right _ _
  | inf s => exact le_rfl
  | nan => exact le_rfl

/-- Every value with a sign encodes to a pattern of that sign. -/
theorem encBits_eq_ofEf (F : FormatDescriptor) (draw : Bool × Nat) {v : Val} {s : Bool} (h : v.signBit = some s) :
    encBits F draw v = ofEf F s (encEf F v) := by
  cases v with
  | zero s' =>
    obtain rfl : s' = s := Option.some.inj h
    exact (ofEf_zero F s').symm
  | fin s' a =>
    obtain rfl : s' = s := Option.some.inj h
    exact encFinite_eq_ofEf F s' a
  | inf s' =>
    obtain rfl : s' = s := Option.some.inj h
    exact (ofEf_efInf F s').symm
  | nan => cases h

/-- Settles O32: every branch of `enc_bits` puts the value's sign above its `ef`. -/
theorem encodePreservesTheSign : Obligations.EncodePreservesTheSign := by
  intro F draw v s hF hs
  rw [encBits_eq_ofEf F draw hs, fields_ofEf_sign (encEf_le F v) hF]

/-- The value of a pattern that is not NaN encodes to that pattern's `ef`. -/
theorem encEf_efVal (hF : F.admitted) (s : Bool) {ef : Nat} (h : ef ≤ efInf F) : encEf F (efVal F s ef) = ef := by
  by_cases h0 : ef = 0
  · subst h0; rfl
  rcases h.lt_or_eq with hlt | rfl
  · rw [efVal_finite F s h0 hlt, encEf, fieldNumber_efMagnitude h0, min_eq_left h]
  · rw [efVal_efInf hF, encEf]

theorem efVal_signBit (s : Bool) {ef : Nat} (h : ef ≤ efInf F) : (efVal F s ef).signBit = some s := by
  rw [efVal]
  split_ifs
  · rfl
  · rfl
  · rfl
  · omega

/-- Encoding the value of a pattern that is not NaN gives the pattern (R118, R122). -/
theorem encBits_val (hF : F.admitted) (draw : Bool × Nat) {bv : BitVec F.totalBits} (h : val F bv ≠ .nan) :
    encBits F draw (val F bv) = bv := by
  have hle := ef_le_of_val_ne_nan hF h
  rw [val_eq_efVal hF, encBits_eq_ofEf F draw (efVal_signBit _ hle), encEf_efVal hF _ hle, ofEf_efOf hF]

/-- Settles O33: rounding the magnitude of an `ef` gives the `ef` back, and a pattern is its sign and its `ef`. -/
theorem encodeInvertsValue : Obligations.EncodeInvertsValue :=
  fun _ draw _ hF h => encBits_val hF draw h

/-- Settles O34: a value of some pattern encodes to that pattern. -/
theorem exactlyRepresentableValuesSurvive : Obligations.ExactlyRepresentableValuesSurvive := by
  intro F draw v hF hv
  constructor
  · exact fun h => ⟨_, h⟩
  · rintro ⟨bv, rfl⟩
    rw [encBits_val hF draw hv]

/-- Settles O28: a clear sign leaves the `ef` as the pattern's number, and rounding keeps order. -/
theorem encodeIsMonotone : Obligations.EncodeIsMonotone := by
  intro F draw draw' a a' hF ha h
  rw [encBits_eq_ofEf F draw (s := false) rfl, encBits_eq_ofEf F draw' (s := false) rfl, ofEf_toNat (encEf_le F _) hF,
    ofEf_toNat (encEf_le F _) hF]
  exact Nat.add_le_add_left (min_le_min_right _ (fieldNumber_mono ha h)) _

end Sys2Proof.Machine
end

section
/-! PROOFS. How good the rounding of R117 is: it chooses the nearest pattern of its sign, the even one at a tie, and is
within half a quantum; a magnitude of few enough bits is kept; and where Binary32 overflows and underflows. -/

namespace Sys2Proof.Machine

open Sys2Proof.Claims

variable {F : FormatDescriptor}

/-! ### The nearest pattern -/

/-- `rne` is nearest among the natural numbers, and even where another one is as near (R12). -/
theorem rne_nearest {x : ℚ} (hx : 0 ≤ x) (k : Nat) :
    |(rne x : ℚ) - x| ≤ |(k : ℚ) - x| ∧ (|(k : ℚ) - x| = |(rne x : ℚ) - x| → k ≠ rne x → rne x % 2 = 0) := by
  have hhalf := abs_rne_sub_le hx
  by_cases hk : k = rne x
  · rw [hk]
    exact ⟨le_rfl, fun _ h => absurd rfl h⟩
  · have hgap : (1 : ℚ) ≤ |(k : ℚ) - rne x| := by
      have hz : (1 : ℤ) ≤ |(k : ℤ) - rne x| := Int.one_le_abs (by omega)
      exact_mod_cast hz
    have htri := abs_sub_le (k : ℚ) x (rne x)
    rw [abs_sub_comm x] at htri
    exact ⟨by linarith, fun heq _ => rne_even_of_tie hx (by linarith)⟩

/-- A magnitude of a binade not below `j` is a whole number of quanta of `j`. -/
theorem efMagnitude_eq_units {j m : Nat} (h : j ≤ efBinade F m) : ∃ k : Nat, efMagnitude F m = k * quantum F j := by
  obtain ⟨d, hd⟩ := Nat.exists_eq_add_of_le h
  refine ⟨efUnits F m * 2 ^ d, ?_⟩
  rw [efMagnitude, hd, quantum_add]
  push_cast
  ring

section
variable {a : ℚ} (ha : 0 < a)
include ha

/-- A magnitude is at least as near to its rounding as to any number of quanta of its binade (R12). -/
theorem fieldNumber_nearest_units (k : Nat) :
    |efMagnitude F (fieldNumber F a) - a| ≤ |k * quantum F (workBinade F a) - a| ∧
    (|k * quantum F (workBinade F a) - a| = |efMagnitude F (fieldNumber F a) - a| → k ≠ roundedUnits F a →
      roundedUnits F a % 2 = 0) := by
  have hq := quantum_pos F (workBinade F a)
  obtain ⟨hle, htie⟩ := rne_nearest (div_pos ha hq).le k
  rw [← roundedUnits_eq] at hle htie
  rw [efMagnitude_fieldNumber ha, abs_units_sub, abs_units_sub]
  exact ⟨mul_le_mul_of_nonneg_right hle hq.le, fun heq => htie (mul_right_cancel₀ hq.ne' heq)⟩

/-- A magnitude of a lower binade is below the lower end of the binade of `a`, which is no nearer than the rounding. -/
theorem fieldNumber_nearer_of_efBinade_lt {m : Nat} (hj : efBinade F m < workBinade F a) :
    |efMagnitude F (fieldNumber F a) - a| < |efMagnitude F m - a| := by
  have hend : 2 ^ F.fractionBits * quantum F (workBinade F a) ≤ a := by
    rw [two_pow_mul_quantum]
    exact (workBinade_spec (F := F) ha).2.resolve_left (by omega)
  have hbelow : efMagnitude F m < 2 ^ F.fractionBits * quantum F (workBinade F a) := by
    rw [two_pow_mul_quantum]
    exact (efMagnitude_lt F m).trans_le (pow2_le_pow2.mpr (by omega))
  calc |efMagnitude F (fieldNumber F a) - a| ≤ |2 ^ F.fractionBits * quantum F (workBinade F a) - a| := by
        exact_mod_cast (fieldNumber_nearest_units (F := F) ha (2 ^ F.fractionBits)).1
    _ = a - 2 ^ F.fractionBits * quantum F (workBinade F a) := by
        rw [abs_sub_comm, abs_of_nonneg (sub_nonneg.mpr hend)]
    _ < a - efMagnitude F m := by linarith
    _ ≤ |efMagnitude F m - a| := by
        rw [abs_sub_comm]
        exact le_abs_self _

/-- No magnitude of the scale is nearer to `a` than the one `a` is rounded to, and where another is as near, the units
of the one chosen are even. -/
theorem fieldNumber_nearest (m : Nat) :
    |efMagnitude F (fieldNumber F a) - a| ≤ |efMagnitude F m - a| ∧
    (|efMagnitude F m - a| = |efMagnitude F (fieldNumber F a) - a| → m ≠ fieldNumber F a →
      roundedUnits F a % 2 = 0) := by
  rcases le_or_gt (workBinade F a) (efBinade F m) with hj | hj
  · obtain ⟨k, hk⟩ := efMagnitude_eq_units hj
    obtain ⟨hle, htie⟩ := fieldNumber_nearest_units (F := F) ha k
    rw [hk]
    refine ⟨hle, fun heq hne => htie heq ?_⟩
    rintro rfl
    exact hne ((efMagnitude_strictMono F).injective (hk.trans (efMagnitude_fieldNumber ha).symm))
  · have hlt := fieldNumber_nearer_of_efBinade_lt ha hj
    exact ⟨hlt.le, fun heq _ => absurd heq hlt.ne'⟩

end

/-- The values that are numbers are those of the patterns below the infinities. -/
theorem efVal_magnitude (hF : F.admitted) (s : Bool) (ef : Nat) :
    (efVal F s ef).magnitude = if ef < efInf F then some (efMagnitude F ef) else none := by
  have hinf := efInf_ne_zero hF
  by_cases h0 : ef = 0
  · subst h0
    rw [if_pos (by omega), efMagnitude_zero]
    rfl
  by_cases hlt : ef < efInf F
  · rw [if_pos hlt, efVal_finite F s h0 hlt]
    rfl
  · rw [if_neg hlt, efVal, if_neg h0, if_neg hlt]
    split_ifs
    · rfl
    · rfl

theorem val_magnitude_eq_some (hF : F.admitted) {bv : BitVec F.totalBits} {q : ℚ} :
    (val F bv).magnitude = some q ↔ efOf F bv < efInf F ∧ efMagnitude F (efOf F bv) = q := by
  rw [val_eq_efVal hF, efVal_magnitude hF]
  simp

/-- A finite encoding is the pattern of the `ef` the magnitude is rounded to. -/
theorem encBits_fin_magnitude (hF : F.admitted) {draw : Bool × Nat} {s : Bool} {a q : ℚ}
    (h : (val F (encBits F draw (.fin s a))).magnitude = some q) :
    fieldNumber F a < efInf F ∧ encBits F draw (.fin s a) = ofEf F s (fieldNumber F a) ∧
    q = efMagnitude F (fieldNumber F a) := by
  have henc : encBits F draw (.fin s a) = ofEf F s (min (fieldNumber F a) (efInf F)) := encFinite_eq_ofEf F s a
  rw [val_magnitude_eq_some hF, henc, efOf_ofEf (min_le_right _ _) hF, min_lt_iff] at h
  obtain ⟨hlt, hq⟩ := h
  have hlt := hlt.resolve_right (lt_irrefl _)
  rw [min_eq_left hlt.le] at henc hq
  exact ⟨hlt, henc, hq.symm⟩

/-- With a fraction field, the last bit of a pattern is the parity of its units. -/
theorem ofEf_getLsbD_zero (hF : F.admitted) (hp : 1 ≤ F.fractionBits) (s : Bool) {j n : Nat}
    (h : j * 2 ^ F.fractionBits + n ≤ efInf F) (hn : n % 2 = 0) :
    (ofEf F s (j * 2 ^ F.fractionBits + n)).getLsbD 0 = false := by
  obtain ⟨p, hp⟩ := Nat.exists_eq_add_of_le' hp
  have hodd : (s.toNat * 2 ^ (F.exponentBits + F.fractionBits) + (j * 2 ^ F.fractionBits + n)) % 2 ≠ 1 := by
    rw [hp, ← add_assoc F.exponentBits, pow_succ, pow_succ, ← mul_assoc, ← mul_assoc]
    omega
  rw [BitVec.getLsbD, Nat.testBit_zero, ofEf_toNat h hF]
  exact decide_eq_false hodd

/-- Settles O27: no `ef` has a nearer magnitude, and at a tie the units are even. -/
theorem encodeChoosesTheNearestEvenPattern : Obligations.EncodeChoosesTheNearestEvenPattern := by
  intro F draw s a q hF hp ha hq bv q' hs hq'
  obtain ⟨hfin, henc, rfl⟩ := encBits_fin_magnitude hF hq
  obtain ⟨hlt, rfl⟩ := (val_magnitude_eq_some hF).mp hq'
  obtain ⟨hle, htie⟩ := fieldNumber_nearest (F := F) ha (efOf F bv)
  have hsign : (fields F bv).sign = s := by
    rw [val_eq_efVal hF, efVal_signBit _ hlt.le] at hs
    exact Option.some.inj hs
  refine ⟨hle, fun heq hne => ?_⟩
  rw [henc] at hne ⊢
  have hef : efOf F bv ≠ fieldNumber F a := by
    intro h
    rw [← h, ← hsign, ofEf_efOf hF] at hne
    exact hne rfl
  exact ofEf_getLsbD_zero hF hp s hfin.le (htie heq hef)

/-- Settles O29: the binade of R117 is that of the larger of `floor_log2(a)` and `emin`. -/
theorem encodeErrorIsAtMostHalfAQuantum : Obligations.EncodeErrorIsAtMostHalfAQuantum := by
  intro F draw s a q k hF ha hlo hhi hq
  obtain ⟨-, -, rfl⟩ := encBits_fin_magnitude hF hq
  rw [← pow2_eq_zpow] at hlo hhi
  have hquantum : quantum F (workBinade F a) / 2 =
      (2 : ℚ) ^ (max k (1 - (F.bias : ℤ)) - (F.fractionBits : ℤ) - 1) := by
    rw [quantum, ← workExponent_eq, workExponent, floorLog2_eq hlo hhi, minExponent, ← pow2_eq_zpow, pow2_sub _ 1]
    rfl
  exact hquantum ▸ abs_efMagnitude_fieldNumber_sub_le ha

/-! ### Magnitudes of few enough bits -/

/-- A number of quanta of any binade, of at most `p + 1` bits, is its own rounding. -/
theorem efMagnitude_fieldNumber_of_exact {j n : Nat} (hn0 : 0 < n) (hn : n < 2 ^ (F.fractionBits + 1)) :
    efMagnitude F (fieldNumber F (n * quantum F j)) = n * quantum F j := by
  have ha : 0 < (n : ℚ) * quantum F j := mul_pos (by exact_mod_cast hn0) (quantum_pos F j)
  have hj : workBinade F (n * quantum F j) ≤ j := by
    apply workBinade_le_of_lt ha
    rw [← two_pow_succ_mul_quantum]
    exact mul_lt_mul_of_pos_right (by exact_mod_cast hn) (quantum_pos F j)
  obtain ⟨d, hd⟩ := Nat.exists_eq_add_of_le hj
  have hunits : (n : ℚ) * quantum F j = (n * 2 ^ d : Nat) * quantum F (workBinade F (n * quantum F j)) := by
    conv_lhs => rw [hd, quantum_add]
    push_cast
    ring
  have hdiv := (div_eq_iff (quantum_pos F _).ne').mpr hunits
  rw [efMagnitude_fieldNumber ha, roundedUnits_eq, hdiv, rne_natCast, ← hunits]

/-- The infinities stand where the scale would go on after the last binade, that of true exponent `B`. -/
theorem efMagnitude_efInf (hF : F.admitted) : efMagnitude F (efInf F) = pow2 (F.bias + 1) := by
  have hin : InBinade F (2 * F.bias) (2 ^ F.fractionBits) :=
    ⟨Nat.pow_lt_pow_right (by omega) (by omega), .inr le_rfl⟩
  have hef : efInf F = 2 * F.bias * 2 ^ F.fractionBits + 2 ^ F.fractionBits := by
    rw [efInf, maxExponent_eq hF]
    ring
  rw [hef, efMagnitude_of_inBinade hin, Nat.cast_pow, Nat.cast_two, two_pow_mul_quantum, minExponent]
  congr 1
  push_cast
  ring

/-- The last binade below the infinities is that of true exponent `B`, which is `2 * B - 1` above the lowest. -/
theorem efBinade_lt (hF : F.admitted) (hB : 1 ≤ F.bias) {ef : Nat} (h : ef < efInf F) : efBinade F ef < 2 * F.bias := by
  rw [efInf, maxExponent_eq hF, ← Nat.div_lt_iff_lt_mul (Nat.two_pow_pos _)] at h
  rw [efBinade]
  omega

/-- The finite values of a format, on the scale of `ef`. -/
theorem val_eq_fin_iff (hF : F.admitted) (bv : BitVec F.totalBits) (s : Bool) (a : ℚ) :
    val F bv = .fin s a ↔
    (fields F bv).sign = s ∧ efOf F bv ≠ 0 ∧ efOf F bv < efInf F ∧ efMagnitude F (efOf F bv) = a := by
  rw [val_eq_efVal hF, efVal]
  split_ifs with h0 hlt heq
  · simp [h0]
  · simp [h0, hlt]
  · simp [hlt]
  · simp [hlt]

/-- The finite values of a format with a bias: the magnitudes of at most `p + 1` bits at an exponent from `1 - B` to
`B` (R122(b), C5). -/
theorem exists_val_eq_fin_iff (hF : F.admitted) (hB : 1 ≤ F.bias) (s : Bool) (a : ℚ) :
    (∃ bv, val F bv = .fin s a) ↔
    ∃ (E : ℤ) (n : ℕ), minExponent F ≤ E ∧ E ≤ F.bias ∧ 0 < n ∧ n < 2 ^ (F.fractionBits + 1) ∧
      a = n * pow2 (E - F.fractionBits) := by
  constructor
  · rintro ⟨bv, hbv⟩
    obtain ⟨-, hne, hlt, rfl⟩ := (val_eq_fin_iff hF bv s a).mp hbv
    have hj := efBinade_lt hF hB hlt
    have hn0 : efUnits F (efOf F bv) ≠ 0 := by
      intro h
      have hpos := efMagnitude_pos (F := F) hne
      rw [efMagnitude, h, Nat.cast_zero, zero_mul] at hpos
      exact lt_irrefl _ hpos
    refine ⟨minExponent F + efBinade F (efOf F bv), efUnits F (efOf F bv), by omega, ?_, Nat.pos_of_ne_zero hn0,
      (inBinade_efUnits F _).1, rfl⟩
    rw [minExponent]
    omega
  · rintro ⟨E, n, hlo, hhi, hn0, hn, rfl⟩
    obtain ⟨j, rfl⟩ := Int.le.dest hlo
    have hmag := efMagnitude_fieldNumber_of_exact (F := F) (j := j) hn0 hn
    set ef := fieldNumber F (n * quantum F j)
    have hpos : 0 < efMagnitude F ef := by
      rw [hmag]
      exact mul_pos (by exact_mod_cast hn0) (quantum_pos F j)
    have hlt : ef < efInf F := by
      rw [← (efMagnitude_strictMono F).lt_iff_lt, hmag, efMagnitude_efInf hF]
      calc (n : ℚ) * quantum F j < 2 ^ (F.fractionBits + 1) * quantum F j :=
            mul_lt_mul_of_pos_right (by exact_mod_cast hn) (quantum_pos F j)
        _ = pow2 (minExponent F + j + 1) := two_pow_succ_mul_quantum F j
        _ ≤ pow2 (F.bias + 1) := pow2_le_pow2.mpr (by omega)
    have hne : ef ≠ 0 := by
      intro h
      rw [h, efMagnitude_zero] at hpos
      exact lt_irrefl _ hpos
    exact ⟨ofEf F s ef, by rw [val_ofEf hF s hlt.le, efVal_finite F s hne hlt, hmag]; rfl⟩

theorem binary32_admitted : binary32.admitted := by decide

theorem binary64_admitted : binary64.admitted := by decide

/-- Settles O35: Binary32 has the bias 127 and a fraction of 23 bits. -/
theorem binary32RepresentsTheseMagnitudes : Obligations.Binary32RepresentsTheseMagnitudes := by
  intro s a
  simp only [← pow2_eq_zpow]
  exact exists_val_eq_fin_iff binary32_admitted (by decide) s a

/-! ### Overflow and underflow of Binary32 -/

/-- Which magnitudes encode to a pattern of their sign up to the infinity. -/
theorem encBits_fin_eq_ofEf_iff (hF : F.admitted) (draw : Bool × Nat) (s : Bool) (a : ℚ) {ef : Nat}
    (h : ef ≤ efInf F) : encBits F draw (.fin s a) = ofEf F s ef ↔ min (fieldNumber F a) (efInf F) = ef := by
  rw [encBits_eq_ofEf F draw (s := s) rfl]
  constructor
  · intro heq
    have := congrArg (efOf F) heq
    rwa [efOf_ofEf (encEf_le F _) hF, efOf_ofEf h hF] at this
  · intro heq
    rw [encEf, heq]

/-- Binary32's infinities are where `2^128` would be, which halfway is reached from `2^128 - 2^103` (R117, D12). -/
theorem efInf_le_fieldNumber_binary32_iff {a : ℚ} (ha : 0 < a) :
    efInf binary32 ≤ fieldNumber binary32 a ↔ (2 : ℚ) ^ 128 - (2 : ℚ) ^ 103 ≤ a := by
  constructor
  · intro h
    have hmag := (efMagnitude_strictMono binary32).monotone h
    rw [efMagnitude_efInf binary32_admitted, pow2_eq_zpow] at hmag
    have hround := (abs_le.mp (abs_efMagnitude_fieldNumber_sub_le (F := binary32) ha)).2
    by_contra hlt
    have hq : quantum binary32 (workBinade binary32 a) ≤ (2 : ℚ) ^ 104 := by
      have ha128 : a < pow2 128 := by
        rw [pow2_eq_zpow]
        norm_num at hlt ⊢
        linarith
      have hj := workBinade_le_of_lt (F := binary32) ha (j := 253) ha128
      have hle : quantum binary32 (workBinade binary32 a) ≤ quantum binary32 253 :=
        pow2_le_pow2.mpr (by omega)
      exact hle.trans_eq (pow2_eq_zpow 104)
    norm_num at hmag hq hlt
    linarith
  · intro h
    have hthreshold : efInf binary32 = fieldNumber binary32 (2 ^ 128 - 2 ^ 103) := by decide +kernel
    rw [hthreshold]
    exact fieldNumber_mono (by norm_num) h

/-- Settles O30: the infinities encode the magnitudes whose `ef` is theirs or above. -/
theorem binary32OverflowThreshold : Obligations.Binary32OverflowThreshold := by
  intro draw s a ha
  rw [← efInf_le_fieldNumber_binary32_iff ha, ← min_eq_right_iff,
    ← encBits_fin_eq_ofEf_iff binary32_admitted draw s a le_rfl, ofEf_efInf]
  rfl

/-- A magnitude rounds to zero exactly up to half the smallest subnormal, a tie going to the even zero (R117(c)). -/
theorem fieldNumber_eq_zero_iff {a : ℚ} (ha : 0 < a) : fieldNumber F a = 0 ↔ a ≤ quantum F 0 / 2 := by
  have hq := quantum_pos F 0
  constructor
  · intro h
    have hround := (abs_le.mp (abs_efMagnitude_fieldNumber_sub_le (F := F) ha)).1
    have hj : workBinade F a = 0 := by
      rw [fieldNumber_eq, Nat.add_eq_zero_iff, Nat.mul_eq_zero] at h
      exact h.1.resolve_right (Nat.two_pow_pos _).ne'
    rw [h, hj, efMagnitude_zero] at hround
    linarith
  · intro h
    have hj : workBinade F a = 0 := by
      refine workBinade_unique ha (h.trans_lt ?_) (.inl rfl)
      rw [← two_pow_succ_mul_quantum]
      have h1 : (1 : ℚ) ≤ 2 ^ (F.fractionBits + 1) := one_le_pow₀ (by norm_num)
      linarith [mul_le_mul_of_nonneg_right h1 hq.le]
    have hx : a / quantum F 0 ≤ 1 / 2 := (div_le_iff₀ hq).mpr (by linarith)
    have hrne := rne_mono (div_pos ha hq).le hx
    have hhalf : rne (1 / 2) = 0 := by decide +kernel
    rw [fieldNumber_eq, roundedUnits_eq, hj, zero_mul, zero_add]
    omega

/-- Settles O31: half the smallest subnormal of Binary32 is `2^-150`. -/
theorem binary32UnderflowThreshold : Obligations.Binary32UnderflowThreshold := by
  intro draw s a ha
  have hhalf : quantum binary32 0 / 2 = (2 : ℚ) ^ (-150 : ℤ) := by
    rw [← pow2_eq_zpow]
    decide +kernel
  have hinf := efInf_ne_zero binary32_admitted
  rw [← hhalf, ← fieldNumber_eq_zero_iff ha, ← ofEf_zero,
    encBits_fin_eq_ofEf_iff binary32_admitted draw s a (Nat.zero_le _)]
  omega

end Sys2Proof.Machine
end

section
/-! PROOFS. What ENCODE drives: the text of a pattern is the texts of its sign, exponent and fraction, and every ENCODE
drives the text of one pattern, of a value other than NaN the one `enc_bits` gives for every draw. -/

namespace Sys2Proof.Machine

open Sys2Proof.Claims

/-! ### The text of a number -/

/-- The lowest `n` bits of a number as text, most significant first (R41). -/
def bitText (n v : Nat) : Text := (List.range n).map (fun k => bitChar (v.testBit (n - 1 - k)))

@[simp] theorem bitText_length (n v : Nat) : (bitText n v).length = n := by
  simp [bitText]

theorem bitText_isBit {n v : Nat} {ch : CharCode} (h : ch ∈ bitText n v) : isBit ch = true := by
  obtain ⟨k, -, rfl⟩ := List.mem_map.mp h
  exact isBit_bitChar _

/-- The text of a number in two parts is the text of the upper part before that of the lower one. -/
theorem bitText_append (m n a : Nat) {b : Nat} (hb : b < 2 ^ n) :
    bitText (m + n) (a * 2 ^ n + b) = bitText m a ++ bitText n b := by
  simp only [bitText, mul_comm a, Nat.testBit_two_pow_mul_add _ hb, List.range_add, List.map_append, List.map_map]
  congr 1
  · refine List.map_congr_left fun k hk => ?_
    have hk := List.mem_range.mp hk
    rw [if_neg (by omega), show m + n - 1 - k - n = m - 1 - k by omega]
  · refine List.map_congr_left fun k hk => ?_
    have hk := List.mem_range.mp hk
    rw [Function.comp_apply, if_pos (by omega), show m + n - 1 - (m + k) = n - 1 - k by omega]

theorem bitText_one (b : Bool) : bitText 1 b.toNat = [bitChar b] := by
  cases b <;> rfl

theorem bitText_zero (n : Nat) : bitText n 0 = List.replicate n charZero := by
  simp [bitText, bitChar, List.map_const']

/-- All ones spell the largest number of a width. -/
theorem bitText_max (n : Nat) : bitText n (2 ^ n - 1) = List.replicate n charOne := by
  rw [List.eq_replicate_iff]
  refine ⟨bitText_length n _, fun ch hch => ?_⟩
  obtain ⟨k, hk, rfl⟩ := List.mem_map.mp hch
  have hk := List.mem_range.mp hk
  rw [Nat.testBit_two_pow_sub_one, decide_eq_true (by omega)]
  rfl

/-- A number that is not zero has a one in its text. -/
theorem charOne_mem_bitText {n v : Nat} (h0 : v ≠ 0) (hv : v < 2 ^ n) : charOne ∈ bitText n v := by
  obtain ⟨i, hi⟩ := Nat.exists_testBit_of_ne_zero h0
  have hin : i < n := by
    by_contra hge
    have hle : 2 ^ n ≤ 2 ^ i := Nat.pow_le_pow_right (by omega) (by omega)
    rw [Nat.testBit_lt_two_pow (hv.trans_le hle)] at hi
    cases hi
  refine List.mem_map.mpr ⟨n - 1 - i, List.mem_range.mpr (by omega), ?_⟩
  rw [show n - 1 - (n - 1 - i) = i by omega, hi]
  rfl

section
variable {F : FormatDescriptor} (hF : F.admitted)
include hF

/-- The text of a pattern, field by field (R69, R70). -/
theorem render_eq_fields (bv : BitVec F.totalBits) :
    render F bv = bitChar (fields F bv).sign ::
      (bitText F.exponentBits (fields F bv).exponent.toNat ++ bitText F.fractionBits (fields F bv).fraction.toNat) := by
  have hlow : (fields F bv).exponent.toNat * 2 ^ F.fractionBits + (fields F bv).fraction.toNat <
      2 ^ (F.exponentBits + F.fractionBits) := by
    rw [pow_add]
    have he := Nat.mul_le_mul_right (2 ^ F.fractionBits) (Nat.succ_le_of_lt (fields F bv).exponent.isLt)
    rw [Nat.succ_mul] at he
    have hf := (fields F bv).fraction.isLt
    omega
  calc render F bv = bitText F.totalBits bv.toNat := rfl
    _ = bitText (1 + (F.exponentBits + F.fractionBits)) _ :=
      congrArg₂ bitText (hF.2.1.trans (add_assoc ..)) ((toNat_eq_fields hF bv).trans (add_assoc ..))
    _ = _ := by
      rw [bitText_append _ _ _ hlow, bitText_append _ _ _ (fields F bv).fraction.isLt, bitText_one,
        List.singleton_append]

theorem render_pack (s : Bool) {e f : Nat} (he : e ≤ maxExponent F) (hf : f < 2 ^ F.fractionBits) :
    render F (pack F s e f) = bitChar s :: (bitText F.exponentBits e ++ bitText F.fractionBits f) := by
  rw [render_eq_fields hF, fields_pack_sign hF s he hf, fields_pack_exponent hF s he hf,
    fields_pack_fraction hF s he hf]

/-- A zero is its sign and zeros (R114). -/
theorem render_zero (s : Bool) :
    render F (pack F s 0 0) = bitChar s :: List.replicate (F.totalBits - 1) charZero := by
  have hN : F.totalBits - 1 = F.exponentBits + F.fractionBits := by have := hF.2.1; omega
  rw [render_pack hF s (Nat.zero_le _) (Nat.two_pow_pos _), bitText_zero, bitText_zero, ← List.replicate_add, hN]

/-- An infinity is its sign, ones, zeros (R115). -/
theorem render_inf (s : Bool) :
    render F (pack F s (maxExponent F) 0) = bitChar s ::
      (List.replicate F.exponentBits charOne ++ List.replicate F.fractionBits charZero) := by
  rw [render_pack hF s le_rfl (Nat.two_pow_pos _), maxExponent, bitText_max, bitText_zero]

/-- Only one pattern has an infinity as its value (R115). -/
theorem val_eq_inf_iff (bv : BitVec F.totalBits) (s : Bool) :
    val F bv = .inf s ↔ bv = pack F s (maxExponent F) 0 := by
  rw [← ofEf_efInf]
  constructor
  · intro h
    have hef : efOf F bv = efInf F ∧ (fields F bv).sign = s := by
      rw [val_eq_efVal hF, efVal] at h
      split_ifs at h with h0 hlt heq
      exact ⟨heq, Val.inf.inj h⟩
    rw [← hef.1, ← hef.2, ofEf_efOf hF]
  · rintro rfl
    rw [val_ofEf hF s le_rfl, efVal_efInf hF]

/-- The value of a zero pattern (R131). -/
theorem val_pack_zero (s : Bool) : val F (pack F s 0 0) = .zero s := by
  rw [← ofEf_zero, val_ofEf hF s (Nat.zero_le _), efVal_zero]

end

/-! ### The text ENCODE drives -/

theorem exec_encode {c : Instr × FormatDescriptor} (hc : c ∈ encodeCommands) (s : State) :
    exec c.1 s = .next (encodeTo c.2 s) := by
  fin_cases hc <;> rfl

theorem encodeCommands_admitted {c : Instr × FormatDescriptor} (hc : c ∈ encodeCommands) :
    c.2.admitted ∧ 1 ≤ c.2.fractionBits := by
  fin_cases hc <;> decide

section
variable (F : FormatDescriptor) (s : State)

theorem encodeTo_succeeded : (encodeTo F s).succeeded := rfl

theorem encodeTo_sameBlock : SameBlock s (encodeTo F s) := ⟨rfl, rfl, rfl⟩

theorem txtOutPort_encodeTo : (encodeTo F s).txtOutPort =
    some (render F (encBits F (Config.nanEncDraw s.draws F s.ports.valIn) (val binary64 s.ports.valIn))) := rfl

theorem txtOutLenPort_encodeTo : (encodeTo F s).txtOutLenPort = some (BitVec.ofNat 7 F.totalBits) := rfl

end

/-- ENCODE of a value whose pattern is the same for every draw succeeds with that pattern's text. -/
theorem succeeds_encode {c : Instr × FormatDescriptor} (hc : c ∈ encodeCommands) {s : State} {v : Val}
    {bv : BitVec c.2.totalBits} (hv : val binary64 s.ports.valIn = v) (hnan : v.isNan = false)
    (hbv : ∀ draw, encBits c.2 draw v = bv) :
    Succeeds c.1 s (fun t => t.txtOutLenPort = some (BitVec.ofNat 7 c.2.totalBits) ∧
      t.txtOutPort = some (render c.2 bv)) := by
  obtain ⟨-, -, -, hdraws, -⟩ := encodeTo_spec c.2 s
  rw [hv, hnan] at hdraws
  refine ⟨_, exec_encode hc s, encodeTo_succeeded c.2 s, encodeTo_sameBlock c.2 s, hdraws, rfl, ?_⟩
  rw [txtOutPort_encodeTo, hv, hbv]

theorem succeeds_mono {i : Instr} {s : State} {post post' : State → Prop} (h : Succeeds i s post)
    (himp : ∀ t, post t → post' t) : Succeeds i s post' := by
  obtain ⟨t, hexec, hok, hsame, hdraws, hpost⟩ := h
  exact ⟨t, hexec, hok, hsame, hdraws, himp t hpost⟩

/-- Settles O20: ENCODE drives a text from every state, and its outcome depends on `VAL_IN` and the draws made. -/
theorem encodeNeverFailsAndReadsNoText : Obligations.EncodeNeverFailsAndReadsNoText := by
  intro c hc s
  refine ⟨⟨_, exec_encode hc s, encodeTo_succeeded c.2 s⟩, fun txt n => ?_⟩
  exact ⟨_, _, exec_encode hc s, exec_encode hc _, SameOut.encodeTo (by rfl) c.2 (by rfl)⟩

/-- Settles O21: the text driven is a rendered pattern. -/
theorem encodeOutputIsABitSequence : Obligations.EncodeOutputIsABitSequence := by
  intro c hc s
  have hbits {bv : BitVec c.2.totalBits} {ch : CharCode} (hch : ch ∈ render c.2 bv) : isBit ch = true :=
    List.all_eq_true.mp (render_all_isBit bv) ch hch
  exact ⟨_, _, exec_encode hc s, txtOutPort_encodeTo c.2 s, txtOutLenPort_encodeTo c.2 s, render_length _,
    fun ch hch => (isBit_iff ch).mp (hbits hch), fun hP ch hch => isBit_not_whitespace hP (hbits hch)⟩

/-- Settles O22: the two words are the zero patterns of binary64. -/
theorem signedZerosEncodeApart : Obligations.SignedZerosEncodeApart := by
  intro c hc s
  obtain ⟨hF, -⟩ := encodeCommands_admitted hc
  have hzero (sign : Bool) (hw : s.ports.valIn = pack binary64 sign 0 0) :
      Succeeds c.1 s (fun t => t.txtOutPort = some (bitChar sign :: List.replicate (c.2.totalBits - 1) charZero)) := by
    have hv : val binary64 s.ports.valIn = .zero sign := by rw [hw, val_pack_zero binary64_admitted]
    rw [← render_zero hF]
    exact succeeds_mono (succeeds_encode hc hv rfl (bv := pack c.2 sign 0 0) fun _ => rfl) fun _ h => h.2
  constructor
  · intro hw
    have hN : c.2.totalBits = c.2.totalBits - 1 + 1 := by have := hF.2.1; omega
    rw [hN, List.replicate_succ]
    exact hzero false hw
  · intro hw
    exact hzero true hw

/-- Settles O23: an infinity is the one pattern at the end of the scale, and the two words are those of binary64. -/
theorem infinityHasOnePattern : Obligations.InfinityHasOnePattern := by
  refine ⟨fun F hF bv s => val_eq_inf_iff hF bv s, fun c hc s sign hw => ?_⟩
  obtain ⟨hF, -⟩ := encodeCommands_admitted hc
  have hword : s.ports.valIn = pack binary64 sign (maxExponent binary64) 0 := by
    rw [hw]
    cases sign <;> rfl
  have hv : val binary64 s.ports.valIn = .inf sign := (val_eq_inf_iff binary64_admitted _ _).mpr hword
  have h := succeeds_encode hc hv rfl (bv := pack c.2 sign (maxExponent c.2) 0) fun _ => rfl
  rw [render_inf hF] at h
  exact succeeds_mono h fun _ ht => ht.2

/-! ### NaN -/

section
variable {F : FormatDescriptor} (hp : 1 ≤ F.fractionBits) (draw : Bool × Nat)
include hp

theorem nanFraction_lt : 1 + draw.2 % (2 ^ F.fractionBits - 1) < 2 ^ F.fractionBits := by
  have h2 : 2 ≤ 2 ^ F.fractionBits := Nat.le_self_pow (by omega) 2
  have := Nat.mod_lt draw.2 (by omega : 0 < 2 ^ F.fractionBits - 1)
  omega

/-- Whatever is drawn is a NaN pattern (R116, R135). -/
theorem val_nanPattern (hF : F.admitted) : val F (nanPattern F draw) = .nan := by
  rw [val_eq_nan_iff hF.1, nanPattern, fields_pack_exponent hF _ le_rfl (nanFraction_lt hp draw),
    fields_pack_fraction hF _ le_rfl (nanFraction_lt hp draw)]
  exact ⟨rfl, by omega⟩

end

/-- Settles O24: every draw gives ones above the fraction `1 + r mod (2^p - 1)`. -/
theorem nanEncodesToSomeNanPattern : Obligations.NanEncodesToSomeNanPattern := by
  intro c hc s hw
  obtain ⟨hF, hp⟩ := encodeCommands_admitted hc
  have hv : val binary64 s.ports.valIn = .nan := (val_binary64_eq_nan_iff _).mpr hw
  obtain ⟨-, -, -, hdraws, -⟩ := encodeTo_spec c.2 s
  rw [hv] at hdraws
  set draw := Config.nanEncDraw s.draws c.2 s.ports.valIn with hdraw
  have hlt := nanFraction_lt hp draw
  refine ⟨_, exec_encode hc s, encodeTo_succeeded c.2 s, encodeTo_sameBlock c.2 s, hdraws, bitChar draw.1,
    bitText c.2.fractionBits (1 + draw.2 % (2 ^ c.2.fractionBits - 1)), ?_, ?_, ?_, ?_, ?_,
    txtOutLenPort_encodeTo c.2 s⟩
  · rw [txtOutPort_encodeTo, hv, ← hdraw, encBits, nanPattern, render_pack hF _ le_rfl hlt, maxExponent, bitText_max]
  · exact (isBit_iff _).mp (isBit_bitChar _)
  · exact bitText_length _ _
  · exact fun ch hch => (isBit_iff ch).mp (bitText_isBit hch)
  · exact charOne_mem_bitText (by omega) hlt

/-! ### Non-NaN words -/

/-- A rendered pattern spells the pattern (R69). -/
theorem spellsBits_render (F : FormatDescriptor) (bv : BitVec F.totalBits) : SpellsBits (render F bv) bv := by
  refine ⟨render_length bv, fun k hk => ?_⟩
  have hk' : k < (render F bv).length := by rwa [render_length]
  rw [List.getElem?_eq_getElem hk', render_getElem]
  rfl

theorem isNan_eq_false {v : Val} (h : v ≠ .nan) : v.isNan = false := by
  rwa [← Bool.not_eq_true, Val.isNan_iff]

/-- Settles O25: the value of a word that is not NaN encodes to the word. -/
theorem encodeB64SpellsItsOperand : Obligations.EncodeB64SpellsItsOperand := by
  intro s hw
  have hv : val binary64 s.ports.valIn ≠ .nan := mt (val_binary64_eq_nan_iff _).mp hw
  have h := succeeds_encode (c := (.encodeB64, binary64)) (by simp) rfl (isNan_eq_false hv)
    fun draw => encBits_val binary64_admitted draw hv
  exact succeeds_mono h fun t ⟨hlen, htxt⟩ => ⟨hlen, _, htxt, spellsBits_render binary64 _⟩

end Sys2Proof.Machine
end

section
/-! PROOFS. The integer algorithm `narrow` (R119) computes what `enc_bits` computes in rational arithmetic for Binary32
(R117), for every binary64 word that is not NaN. -/

namespace Sys2Proof.Machine

open Sys2Proof.Claims

/-- The `ef` that `narrow` computes for the normal number `M * 2^(T-52)` (R119). -/
def narrowEf (M : Nat) (T : Int) : Nat :=
  if -126 ≤ T then (T + 126).toNat * 2 ^ 23 + rshRne M 29
  else if 54 < (-T - 97).toNat then 0 else rshRne M (-T - 97).toNat

/-- `narrow` of a normal number is its sign above that `ef`, or the infinity of its sign (R119). -/
theorem narrow_of_normal {W : Word} (h0 : (fields binary64 W).exponent.toNat ≠ 0)
    (hmax : (fields binary64 W).exponent.toNat ≠ 2047) :
    narrow W = ofEf binary32 (fields binary64 W).sign
      (min (narrowEf (2 ^ 52 + (fields binary64 W).fraction.toNat) ((fields binary64 W).exponent.toNat - 1023))
        (efInf binary32)) := by
  have hinf : efInf binary32 = 255 * 2 ^ 23 := rfl
  unfold narrow
  dsimp only
  rw [if_neg hmax, if_neg h0, ← narrowEf, hinf]
  split
  · next h => rw [min_eq_right h]; rfl
  · next h => rw [min_eq_left (by omega)]; rfl

/-- `narrow` of a word with exponent 2047 is an infinity (R119). -/
theorem narrow_of_exponent_max {W : Word} (h : (fields binary64 W).exponent.toNat = 2047) :
    narrow W = ofEf binary32 (fields binary64 W).sign (efInf binary32) := by
  rw [ofEf_efInf]
  unfold narrow
  dsimp only
  rw [if_pos h]
  rfl

/-- `narrow` of a word with exponent 0 is a zero (R119). -/
theorem narrow_of_exponent_zero {W : Word} (h : (fields binary64 W).exponent.toNat = 0) :
    narrow W = ofEf binary32 (fields binary64 W).sign 0 := by
  rw [ofEf_zero]
  unfold narrow
  dsimp only
  rw [if_neg (by omega), if_pos h]

/-- A number of units over a quantum `2^k` times as large is the quotient `narrow` rounds. -/
theorem units_div_pow2 (M k : Nat) (x : Int) : (M : ℚ) * pow2 x / pow2 (x + k) = (M : ℚ) / ((2 ^ k : Nat) : ℚ) := by
  rw [pow2_add, pow2_natCast, mul_comm (M : ℚ), mul_div_mul_left _ _ (pow2_pos x).ne']

/-- Shifting out more than all bits of a number leaves zero (R119). -/
theorem rshRne_eq_zero {M k : Nat} (hM : M < 2 ^ 53) (hk : 54 < k) : rshRne M k = 0 := by
  have hpow : 2 ^ 53 ≤ 2 ^ (k - 1) := Nat.pow_le_pow_right (by omega) (by omega)
  have hlt : M < 2 ^ (k - 1) := hM.trans_le hpow
  have hltk : M < 2 ^ k := hlt.trans (Nat.pow_lt_pow_right (by omega) (by omega))
  unfold rshRne
  rw [Nat.div_eq_of_lt hltk, Nat.mod_eq_of_lt hltk]
  simp only [hlt.not_gt, hlt.ne, false_and, or_self, if_false]

/-- The `ef` of R117 for Binary32 is the one `narrow` computes in integers (R119). -/
theorem fieldNumber_eq_narrowEf {M : Nat} (hlo : 2 ^ 52 ≤ M) (hhi : M < 2 ^ 53) (T : Int) :
    fieldNumber binary32 (M * pow2 (T - 52)) = narrowEf M T := by
  have hlog : floorLog2 (M * pow2 (T - 52)) = T := by
    have hsplit (k : Nat) : pow2 (T - 52 + k) = ((2 ^ k : Nat) : ℚ) * pow2 (T - 52) := by
      rw [pow2_add, pow2_natCast, mul_comm]
    apply floorLog2_eq
    · rw [show T = T - 52 + (52 : Nat) by omega, hsplit, show T - 52 + (52 : Nat) - 52 = T - 52 by omega]
      exact mul_le_mul_of_nonneg_right (by exact_mod_cast hlo) (pow2_pos _).le
    · rw [show T + 1 = T - 52 + (53 : Nat) by omega, hsplit]
      exact mul_lt_mul_of_pos_right (by exact_mod_cast hhi) (pow2_pos _)
  have hwork : workExponent binary32 (M * pow2 (T - 52)) = max T (-126) := by
    rw [workExponent, hlog]
    rfl
  rw [fieldNumber, roundedUnits, hwork, narrowEf]
  by_cases hT : -126 ≤ T
  · have hq : T - ((23 : Nat) : Int) = T - 52 + (29 : Nat) := by omega
    rw [max_eq_left hT, hq, units_div_pow2, ← rshRne_eq_rne M (by omega), if_pos hT]
    rfl
  · have hq : (-126 : Int) - ((23 : Nat) : Int) = T - 52 + ((-T - 97).toNat : Nat) := by omega
    rw [max_eq_right (by omega), hq, units_div_pow2, ← rshRne_eq_rne M (by omega), if_neg hT]
    have hzero : (-126 - minExponent binary32).toNat * 2 ^ binary32.fractionBits = 0 := rfl
    rw [hzero, zero_add]
    split
    · next hk => exact rshRne_eq_zero hhi hk
    · rfl

/-- The subnormals of binary64 are far below half the smallest subnormal of Binary32. -/
theorem fieldNumber_subnormal_eq_zero {f : Nat} (h0 : f ≠ 0) (hf : f < 2 ^ 52) :
    fieldNumber binary32 (efMagnitude binary64 f) = 0 := by
  have hbin : efBinade binary64 f = 0 := by
    rw [efBinade, Nat.div_eq_of_lt hf]
  have hlt := efMagnitude_lt binary64 f
  rw [hbin] at hlt
  have hle : pow2 (minExponent binary64 + (0 : Nat) + 1) ≤ quantum binary32 0 / 2 := by
    have hhalf : quantum binary32 0 / 2 = pow2 (-150) := by decide +kernel
    rw [hhalf]
    exact pow2_le_pow2.mpr (by decide)
  exact (fieldNumber_eq_zero_iff (efMagnitude_pos h0)).mpr (hlt.le.trans hle)

section
variable (W : Word)

/-- A word with exponent 0, a zero or a subnormal, encodes to a zero of Binary32. -/
theorem encEf_of_exponent_zero (h0 : (fields binary64 W).exponent.toNat = 0) :
    encEf binary32 (val binary64 W) = 0 := by
  have hf : (fields binary64 W).fraction.toNat < 2 ^ 52 := (fields binary64 W).fraction.isLt
  have hef : efOf binary64 W = (fields binary64 W).fraction.toNat := by rw [efOf, h0, zero_mul, zero_add]
  rw [val_eq_efVal binary64_admitted, hef]
  by_cases hf0 : (fields binary64 W).fraction.toNat = 0
  · rw [hf0]
    rfl
  · have hlt : (fields binary64 W).fraction.toNat < efInf binary64 := hf.trans (by decide)
    rw [efVal_finite _ _ hf0 hlt, encEf, fieldNumber_subnormal_eq_zero hf0 hf, Nat.zero_min]

/-- A word with exponent 2047 that is not NaN encodes to the infinity. -/
theorem encEf_of_exponent_max (hmax : (fields binary64 W).exponent.toNat = 2047) (h : val binary64 W ≠ .nan) :
    encEf binary32 (val binary64 W) = efInf binary32 := by
  have hef : efOf binary64 W = efInf binary64 := by
    refine le_antisymm (ef_le_of_val_ne_nan binary64_admitted h) ?_
    rw [efOf, hmax]
    exact Nat.le_add_right _ _
  rw [val_eq_efVal binary64_admitted, hef, efVal_efInf binary64_admitted, encEf]

/-- A normal word encodes to the `ef` that `narrow` computes, up to the infinity. -/
theorem encEf_of_normal (h0 : (fields binary64 W).exponent.toNat ≠ 0)
    (hmax : (fields binary64 W).exponent.toNat ≠ 2047) :
    encEf binary32 (val binary64 W) =
      min (narrowEf (2 ^ 52 + (fields binary64 W).fraction.toNat) ((fields binary64 W).exponent.toNat - 1023))
        (efInf binary32) := by
  have hf : (fields binary64 W).fraction.toNat < 2 ^ 52 := (fields binary64 W).fraction.isLt
  have he : (fields binary64 W).exponent.toNat < maxExponent binary64 := by
    have hle := fields_exponent_le (F := binary64) W
    have hval : maxExponent binary64 = 2047 := by decide
    omega
  rw [val_eq_efVal binary64_admitted, efOf]
  generalize (fields binary64 W).exponent.toNat = e at h0 he
  generalize (fields binary64 W).fraction.toNat = f at hf
  have hne : e * 2 ^ binary64.fractionBits + f ≠ 0 := by
    have := Nat.mul_pos (Nat.pos_of_ne_zero h0) (Nat.two_pow_pos binary64.fractionBits)
    omega
  have hmag : efMagnitude binary64 (e * 2 ^ binary64.fractionBits + f) =
      ((2 ^ 52 + f : Nat) : ℚ) * pow2 ((e : Int) - 1023 - 52) := by
    rw [← normalMagnitude_eq_efMagnitude (F := binary64) h0 hf]
    exact normalMagnitude_eq e f
  rw [efVal_finite _ _ hne ((ef_lt_efInf_iff hf).mpr he), encEf, hmag,
    fieldNumber_eq_narrowEf (Nat.le_add_right _ _) (by omega)]

end

/-- On the words that are not NaN, `enc_bits` to Binary32 is `narrow`, by the three kinds of words it tells apart
(R119). -/
theorem encBits_eq_narrow (draw : Bool × Nat) {W : Word} (h : val binary64 W ≠ .nan) :
    encBits binary32 draw (val binary64 W) = narrow W := by
  have hsign : (val binary64 W).signBit = some (fields binary64 W).sign := by
    rw [val_eq_efVal binary64_admitted]
    exact efVal_signBit _ (ef_le_of_val_ne_nan binary64_admitted h)
  rw [encBits_eq_ofEf binary32 draw hsign]
  by_cases hmax : (fields binary64 W).exponent.toNat = 2047
  · rw [encEf_of_exponent_max W hmax h, narrow_of_exponent_max hmax]
  by_cases h0 : (fields binary64 W).exponent.toNat = 0
  · rw [encEf_of_exponent_zero W h0, narrow_of_exponent_zero h0]
  · rw [encEf_of_normal W h0 hmax, narrow_of_normal h0 hmax]

/-- Settles O26: the pattern ENCODE.B32 drives is the one `narrow` computes. -/
theorem encodeB32ComputesNarrow : Obligations.EncodeB32ComputesNarrow := by
  intro s hw
  have hv : val binary64 s.ports.valIn ≠ .nan := mt (val_binary64_eq_nan_iff _).mp hw
  have h := succeeds_encode (c := (.encodeB32, binary32)) (by simp) rfl (isNan_eq_false hv)
    fun draw => encBits_eq_narrow draw hv
  exact succeeds_mono h fun t ⟨hlen, htxt⟩ => ⟨hlen, _, htxt, spellsBits_render binary32 _⟩

end Sys2Proof.Machine
end

section
/-! PROOFS. Chains of the units (R196): DECODE and then ENCODE gives the text back, since binary64 represents every value
of Binary32; and a NaN stays a NaN through all four units. -/

namespace Sys2Proof.Machine

open Sys2Proof.Claims

/-! ### DECODE -/

/-- Binary64 represents every value of Binary32: three more exponent bits, and 29 more fraction bits (R138). -/
theorem exists_word_of_val_binary32 {bv : BitVec binary32.totalBits} {v : Val} (hv : val binary32 bv = v)
    (h : v ≠ .nan) : ∃ w : Word, val binary64 w = v := by
  cases v with
  | zero s => exact ⟨_, val_pack_zero binary64_admitted s⟩
  | inf s => exact ⟨_, (val_eq_inf_iff binary64_admitted _ s).mpr rfl⟩
  | nan => exact absurd rfl h
  | fin s a =>
    obtain ⟨E, n, hlo, hhi, hn0, hn, rfl⟩ :=
      (exists_val_eq_fin_iff binary32_admitted (by decide) s a).mp ⟨bv, hv⟩
    refine (exists_val_eq_fin_iff binary64_admitted (by decide) s _).mpr ⟨E, n * 2 ^ 29, ?_, ?_, ?_, ?_, ?_⟩
    · exact le_trans (by decide) hlo
    · exact hhi.trans (by decide)
    · positivity
    · exact Nat.mul_lt_mul_of_pos_right hn (by positivity)
    · rw [show E - (binary32.fractionBits : Nat) = E - (binary64.fractionBits : Nat) + (29 : Nat) by
        simp only [Nat.cast_ofNat]; omega, pow2_add, pow2_natCast]
      push_cast
      ring

theorem decodeFrom_of_parse {F : FormatDescriptor} {word : BitVec F.totalBits → Word} {s : State}
    {bv : BitVec F.totalBits} (h : parse s.params F s.ports.text = .ok bv) :
    decodeFrom F word s = driveDecoded F bv (word bv) s := by
  simp only [decodeFrom, h]

/-- DECODE of a pattern that is not NaN drives a word of the same value (R130, R136, R138). -/
theorem decodeFrom_of_val_ne_nan {F : FormatDescriptor} {word : BitVec F.totalBits → Word} {s : State}
    {bv : BitVec F.totalBits} (h : parse s.params F s.ports.text = .ok bv) (hv : val F bv ≠ .nan) :
    decodeFrom F word s = s.drive (.value (word bv)) := by
  rw [decodeFrom_of_parse h]
  rcases driveDecoded_cases F bv (word bv) s with ⟨hnan, -⟩ | ⟨-, e⟩
  · exact absurd ((Val.isNan_iff _).mp hnan) hv
  · exact e

/-- DECODE of a NaN pattern drives a NaN word, whatever is drawn (R135). -/
theorem decodeFrom_of_val_eq_nan {F : FormatDescriptor} {word : BitVec F.totalBits → Word} {s : State}
    {bv : BitVec F.totalBits} (h : parse s.params F s.ports.text = .ok bv) (hv : val F bv = .nan) :
    decodeFrom F word s =
      (s.countDraw true).drive (.value (nanPattern binary64 (Config.nanValDraw s.draws F bv.toNat))) := by
  rw [decodeFrom_of_parse h]
  rcases driveDecoded_cases F bv (word bv) s with ⟨-, e⟩ | ⟨hnot, -⟩
  · exact e
  · rw [hv] at hnot
    cases hnot

/-- DECODE of either format drives a word with the value of the pattern (R130, R136, R138). -/
theorem exec_decode_of_val_ne_nan {u : UnitsOf} (hu : u ∈ formats) {s : State} {bv : BitVec u.format.totalBits}
    (h : parse s.params u.format s.ports.text = .ok bv) (hv : val u.format bv ≠ .nan) :
    ∃ w, exec u.decode s = .next (s.drive (.value w)) ∧ val binary64 w = val u.format bv := by
  fin_cases hu
  · obtain ⟨w, hw⟩ := exists_word_of_val_binary32 (bv := bv) rfl hv
    refine ⟨encBits binary64 (false, 0) (val binary32 bv), ?_, ?_⟩
    · rw [exec_decodeB32, decodeFrom_of_val_ne_nan h hv]
    · have hwnan : val binary64 w ≠ .nan := by rwa [hw]
      rw [← hw, encBits_val binary64_admitted _ hwnan, hw]
  · exact ⟨bv, by rw [exec_decodeB64, decodeFrom_of_val_ne_nan h hv]; rfl, rfl⟩

/-- DECODE of either format drives a NaN word for a NaN pattern (R135). -/
theorem exec_decode_of_val_eq_nan {c : Instr × FormatDescriptor} (hc : c ∈ decodeCommands) {s : State}
    {bv : BitVec c.2.totalBits} (h : parse s.params c.2 s.ports.text = .ok bv) (hv : val c.2 bv = .nan) :
    ∃ w, exec c.1 s = .next ((s.countDraw true).drive (.value w)) ∧ val binary64 w = .nan := by
  refine ⟨nanPattern binary64 (Config.nanValDraw s.draws c.2 bv.toNat), ?_,
    val_nanPattern (by decide) _ binary64_admitted⟩
  fin_cases hc
  · rw [exec_decodeB32, decodeFrom_of_val_eq_nan h hv]
  · rw [exec_decodeB64, decodeFrom_of_val_eq_nan h hv]

/-! ### The units of a format -/

theorem encode_mem_of_formats {u : UnitsOf} (hu : u ∈ formats) : (u.encode, u.format) ∈ encodeCommands := by
  fin_cases hu <;> simp

theorem exec_extract {u : UnitsOf} (hu : u ∈ formats) (s : State) :
    exec u.extract s = .next (extractFields u.format s) := by
  fin_cases hu <;> rfl

/-- EXTRACT of a text that parses drives the pattern's fields (R150). -/
theorem extractFields_of_parse {F : FormatDescriptor} {s : State} {bv : BitVec F.totalBits}
    (h : parse s.params F s.ports.text = .ok bv) :
    extractFields F s = s.drive (tripleResult F (fields F bv)) := by
  simp only [extractFields, h]

/-- CLASSIFY of the fields that EXTRACT of the same format drives is in range and gives their category (R153). -/
theorem exec_classify_of_fields {u : UnitsOf} (hu : u ∈ formats) {s : State} (t : FieldTriple u.format)
    (he : s.ports.expIn = t.exponent.setWidth 11) (hf : s.ports.fracIn = t.fraction.setWidth 52) :
    exec u.classify s =
      .next (s.drive (.category (classify u.format.exponentBits t.exponent t.fraction.toNat))) := by
  fin_cases hu
  · have het : s.ports.expIn.toNat = t.exponent.toNat := by
      rw [he, BitVec.toNat_setWidth_of_le (by decide)]
    have hft : s.ports.fracIn.toNat = t.fraction.toNat := by
      rw [hf, BitVec.toNat_setWidth_of_le (by decide)]
    have hin : s.ports.fieldsInRange binary32 = true := by
      simp only [Ports.fieldsInRange, het, hft, Bool.and_eq_true, decide_eq_true_eq]
      exact ⟨Nat.le_sub_one_of_lt t.exponent.isLt, Nat.le_sub_one_of_lt t.fraction.isLt⟩
    have hback : s.ports.expIn.setWidth 8 = t.exponent := by
      apply BitVec.eq_of_toNat_eq
      rw [BitVec.toNat_setWidth, het]
      exact Nat.mod_eq_of_lt t.exponent.isLt
    rcases execClassifyB32_cases s with ⟨-, e⟩ | ⟨hout, -⟩
    · rw [hback, hft] at e
      exact e
    · rw [hin] at hout
      cases hout
  · have hcat : exec .classifyB64 s =
        .next (s.drive (.category (classify 11 s.ports.expIn s.ports.fracIn.toNat))) := rfl
    rw [he, hf, BitVec.setWidth_eq, BitVec.setWidth_eq] at hcat
    exact hcat

/-- Settles O42: the word DECODE drives has the value of the pattern, and that value encodes to the pattern. -/
theorem decodeThenEncodeReturnsTheText : Obligations.DecodeThenEncodeReturnsTheText := by
  intro u hu s bv hparse hv
  obtain ⟨w, hdecode, hw⟩ := exec_decode_of_val_ne_nan hu hparse hv
  have henc := encode_mem_of_formats hu
  obtain ⟨hF, -⟩ := encodeCommands_admitted henc
  set s₂ := (s.drive (.value w)).present { s.ports with valIn := w } with hs₂
  refine ⟨_, s₂, encodeTo u.format s₂, hdecode, rfl, exec_encode henc s₂, rfl, encodeTo_succeeded _ _, ?_⟩
  have hval : val binary64 s₂.ports.valIn = val u.format bv := hw
  rw [txtOutPort_encodeTo, hval, encBits_val hF _ hv, render_of_parse hparse]

/-- Settles O50: DECODE and ENCODE drive NaN patterns, and the category of a NaN pattern's fields is NaN. -/
theorem nanStaysNanThroughTheBlock : Obligations.NanStaysNanThroughTheBlock := by
  intro c hc u hu s bv hP hparse hv
  obtain ⟨w, hdecode, hw⟩ := exec_decode_of_val_eq_nan hc hparse hv
  have henc := encode_mem_of_formats hu
  obtain ⟨hF, hp⟩ := encodeCommands_admitted henc
  let s₁ := (s.countDraw true).drive (.value w)
  let s₂ := s₁.present { s₁.ports with valIn := w }
  let s₃ := encodeTo u.format s₂
  have hval : val binary64 s₂.ports.valIn = .nan := hw
  obtain ⟨bv', hbv', hnan⟩ : ∃ bv', s₃.txtOutPort = some (render u.format bv') ∧ val u.format bv' = .nan :=
    ⟨_, by rw [txtOutPort_encodeTo, hval, encBits], val_nanPattern hp _ hF⟩
  let s₄ := s₃.present (s₃.ports.withText (render u.format bv'))
  have hparse' : parse s₄.params u.format s₄.ports.text = .ok bv' := by
    rw [State.present_ports, Ports.text_withText]
    exact parse_render hP bv'
  let t := fields u.format bv'
  let s₅ := s₄.drive (tripleResult u.format t)
  let s₆ := s₅.present { s₅.ports with expIn := t.exponent.setWidth 11, fracIn := t.fraction.setWidth 52 }
  have hcat : classify u.format.exponentBits t.exponent t.fraction.toNat = .nan :=
    (classify_eq_nan_iff hF.1 _ _).mpr ((val_eq_nan_iff hF.1 bv').mp hnan)
  refine ⟨s₁, s₂, s₃, s₄, s₅, s₆, _, hdecode, rfl, exec_encode henc s₂, State.feedText_eq_some.mpr ⟨_, hbv', rfl⟩,
    ?_, rfl, exec_classify_of_fields hu t rfl rfl, rfl, ?_⟩
  · rw [exec_extract hu, extractFields_of_parse hparse']
  · rw [hcat]
    rfl

end Sys2Proof.Machine
end

section
/-! PROOFS. The Decoder: the value of a pattern put together from its fields, the extreme values of the formats (R132),
the order of the values (R133), and what DECODE drives, among it that the integer algorithm `widen` (R134) computes what
`enc_bits` computes in rational arithmetic. -/

namespace Sys2Proof.Machine

open Sys2Proof.Claims

variable {F : FormatDescriptor}

/-! ### The value of fields -/

section
variable (hF : F.admitted) (s : Bool) {e f : Nat} (hf : f < 2 ^ F.fractionBits)
include hF hf

/-- The `ef` of an assembled pattern (R117). -/
theorem efOf_pack (he : e ≤ maxExponent F) : efOf F (pack F s e f) = e * 2 ^ F.fractionBits + f := by
  rw [efOf, fields_pack_exponent hF s he hf, fields_pack_fraction hF s he hf]

/-- A fraction under exponent 0 is a subnormal (R131). -/
theorem val_pack_subnormal (hf0 : f ≠ 0) : val F (pack F s 0 f) = .fin s (subnormalMagnitude F f) := by
  have hmax : 0 < maxExponent F := by rw [maxExponent_eq hF]; omega
  have hlt := (ef_lt_efInf_iff (F := F) hf).mpr hmax
  have hef := efOf_pack hF s hf (Nat.zero_le _)
  rw [zero_mul, zero_add] at hlt hef
  rw [val_eq_fin_iff hF, hef]
  exact ⟨fields_pack_sign hF s (Nat.zero_le _) hf, hf0, hlt, (subnormalMagnitude_eq_efMagnitude hf).symm⟩

/-- An exponent that is not all zeros and not all ones is a normal (R131). -/
theorem val_pack_normal (he0 : e ≠ 0) (he : e < maxExponent F) :
    val F (pack F s e f) = .fin s (normalMagnitude F e f) := by
  have hpos := Nat.mul_pos (Nat.pos_of_ne_zero he0) (Nat.two_pow_pos F.fractionBits)
  rw [val_eq_fin_iff hF, efOf_pack hF s hf he.le]
  exact ⟨fields_pack_sign hF s he.le hf, by omega, (ef_lt_efInf_iff hf).mpr he,
    (normalMagnitude_eq_efMagnitude he0 hf).symm⟩

end

/-- A fraction under exponent 0, in units of the smallest subnormal (R131, R132). -/
theorem val_eq_of_subnormal (hF : F.admitted) {bv : BitVec F.totalBits} {s : Bool} {f : Nat} {a : ℚ}
    (hbv : pack F s 0 f = bv) (hf0 : f ≠ 0) (hf : f < 2 ^ F.fractionBits)
    (ha : f * (2 : ℚ) ^ (1 - F.bias - F.fractionBits : ℤ) = a) : val F bv = .fin s a := by
  rw [← hbv, ← ha, val_pack_subnormal hF s hf hf0, subnormalMagnitude_eq, pow2_eq_zpow]

/-- A normal number, in units of its quantum (R131, R132). -/
theorem val_eq_of_normal (hF : F.admitted) {bv : BitVec F.totalBits} {s : Bool} {e f : Nat} {a : ℚ}
    (hbv : pack F s e f = bv) (he0 : e ≠ 0) (he : e < maxExponent F) (hf : f < 2 ^ F.fractionBits)
    (ha : (2 ^ F.fractionBits + f : Nat) * (2 : ℚ) ^ (e - F.bias - F.fractionBits : ℤ) = a) :
    val F bv = .fin s a := by
  rw [← hbv, ← ha, val_pack_normal hF s hf he0 he, normalMagnitude_eq, pow2_eq_zpow]

/-- Settles O37: the extremes are the first and last subnormal, the first normal and the last one below infinity. -/
theorem extremeValuesOfTheFormats : Obligations.ExtremeValuesOfTheFormats := by
  refine ⟨?_, ?_, ?_, ?_, ?_, ?_, ?_, ?_⟩
  · exact val_eq_of_subnormal binary32_admitted (f := 1) rfl (by decide) (by decide) (by norm_num)
  · exact val_eq_of_subnormal binary32_admitted (f := 2 ^ 23 - 1) rfl (by decide) (by decide) (by norm_num)
  · exact val_eq_of_normal binary32_admitted (e := 1) (f := 0) rfl (by decide) (by decide) (by decide) (by norm_num)
  · exact val_eq_of_normal binary32_admitted (e := 254) (f := 2 ^ 23 - 1) rfl (by decide) (by decide) (by decide)
      (by norm_num)
  · exact val_eq_of_subnormal binary64_admitted (f := 1) rfl (by decide) (by decide) (by norm_num)
  · exact val_eq_of_subnormal binary64_admitted (f := 2 ^ 52 - 1) rfl (by decide) (by decide) (by norm_num)
  · have hsmallest : (2 : ℚ) ^ 52 * (2 : ℚ) ^ (-1074 : ℤ) = (2 : ℚ) ^ (-1022 : ℤ) :=
      (zpow_add₀ two_ne_zero 52 (-1074)).symm
    exact val_eq_of_normal binary64_admitted (e := 1) (f := 0) rfl (by decide) (by decide) (by decide)
      (by exact_mod_cast hsmallest)
  · exact val_eq_of_normal binary64_admitted (e := 2046) (f := 2 ^ 52 - 1) rfl (by decide) (by decide) (by decide)
      (by norm_num)

/-! ### The order of the values -/

/-- A value with a sign has the sign of its pattern, and only NaN has none (R131). -/
theorem sign_of_signBit_val (hF : F.admitted) {bv : BitVec F.totalBits} {s : Bool} (h : (val F bv).signBit = some s) :
    val F bv ≠ .nan ∧ (fields F bv).sign = s := by
  have hnan : val F bv ≠ .nan := by
    intro hv
    rw [hv] at h
    cases h
  rw [val_eq_efVal hF, efVal_signBit _ (ef_le_of_val_ne_nan hF hnan)] at h
  exact ⟨hnan, Option.some.inj h⟩

/-- With the sign clear, the `ef` of a pattern that is not NaN is the pattern's number. -/
theorem toNat_eq_efOf (hF : F.admitted) {bv : BitVec F.totalBits} (h : (val F bv).signBit = some false) :
    bv.toNat = efOf F bv := by
  obtain ⟨hnan, hsign⟩ := sign_of_signBit_val hF h
  calc bv.toNat = (ofEf F false (efOf F bv)).toNat := by rw [← hsign, ofEf_efOf hF]
    _ = efOf F bv := by rw [ofEf_toNat (ef_le_of_val_ne_nan hF hnan) hF, Bool.toNat_false, zero_mul, zero_add]

/-- The `ef` of an infinity (R115). -/
theorem efOf_of_val_eq_inf (hF : F.admitted) {bv : BitVec F.totalBits} {s : Bool} (h : val F bv = .inf s) :
    efOf F bv = efInf F := by
  rw [(val_eq_inf_iff hF bv s).mp h, ← ofEf_efInf, efOf_ofEf le_rfl hF]

/-- Patterns that are not NaN have different values: encoding takes a value back to its pattern (R133). -/
theorem val_injective_of_ne_nan (hF : F.admitted) {bv bv' : BitVec F.totalBits} (h : val F bv ≠ .nan)
    (heq : val F bv = val F bv') : bv = bv' := by
  have h' : val F bv' ≠ .nan := heq ▸ h
  calc bv = encBits F (false, 0) (val F bv) := (encBits_val hF _ h).symm
    _ = encBits F (false, 0) (val F bv') := by rw [heq]
    _ = bv' := encBits_val hF _ h'

/-- Settles O36: encoding inverts `val`, and with the sign clear a pattern's number is its `ef`, with which the
magnitudes rise. -/
theorem valueIsInjectiveAndIncreasing : Obligations.ValueIsInjectiveAndIncreasing := by
  intro F hF
  refine ⟨fun bv bv' => val_injective_of_ne_nan hF, val_eq_nan_iff hF.1, ?_, ?_⟩
  · intro bv bv' q q' hs hs' hq hq'
    obtain ⟨-, rfl⟩ := (val_magnitude_eq_some hF).mp hq
    obtain ⟨-, rfl⟩ := (val_magnitude_eq_some hF).mp hq'
    rw [toNat_eq_efOf hF hs, toNat_eq_efOf hF hs', (efMagnitude_strictMono F).lt_iff_lt]
  · intro bv bv' q hs hq hinf
    obtain ⟨hlt, -⟩ := (val_magnitude_eq_some hF).mp hq
    have hs' : (val F bv').signBit = some false := by rw [hinf]; rfl
    rwa [toNat_eq_efOf hF hs, toNat_eq_efOf hF hs', efOf_of_val_eq_inf hF hinf]

/-! ### The integer algorithm `widen` -/

section
variable {bv : BitVec 32}

/-- `widen` of a pattern with exponent 255 is an infinity (R134). -/
theorem widen_of_exponent_max (h : (fields binary32 bv).exponent.toNat = 255) :
    widen bv = pack binary64 (fields binary32 bv).sign (maxExponent binary64) 0 := by
  unfold widen
  dsimp only
  rw [if_pos h]
  rfl

/-- `widen` of a zero is the zero of its sign (R134). -/
theorem widen_of_zero (he : (fields binary32 bv).exponent.toNat = 0) (hf : (fields binary32 bv).fraction.toNat = 0) :
    widen bv = pack binary64 (fields binary32 bv).sign 0 0 := by
  unfold widen
  dsimp only
  rw [if_neg (by omega), if_pos ⟨he, hf⟩]

/-- `widen` of a subnormal is the normal number of the same bits below the most significant one (R134). -/
theorem widen_of_subnormal {f : Nat} (he : (fields binary32 bv).exponent.toNat = 0)
    (hf : (fields binary32 bv).fraction.toNat = f) (hf0 : f ≠ 0) :
    widen bv = pack binary64 (fields binary32 bv).sign (msb f + 874) ((f - 2 ^ msb f) * 2 ^ (52 - msb f)) := by
  subst hf
  unfold widen
  dsimp only
  rw [if_neg (by omega), if_neg fun h => hf0 h.2, if_pos he]

/-- `widen` of a normal number: the difference of the biases onto the exponent, 29 zeros under the fraction (R134). -/
theorem widen_of_normal (h0 : (fields binary32 bv).exponent.toNat ≠ 0)
    (hmax : (fields binary32 bv).exponent.toNat ≠ 255) :
    widen bv = pack binary64 (fields binary32 bv).sign ((fields binary32 bv).exponent.toNat + 896)
      ((fields binary32 bv).fraction.toNat * 2 ^ 29) := by
  unfold widen
  dsimp only
  rw [if_neg hmax, if_neg fun h => h0 h.1, if_neg h0]

end

/-- Moving a power of two between a whole number and its unit. -/
theorem natCast_mul_two_pow_mul_pow2 (n k : Nat) (x : Int) :
    ((n * 2 ^ k : Nat) : ℚ) * pow2 x = (n : ℚ) * pow2 (x + k) := by
  rw [pow2_add, pow2_natCast]
  push_cast
  ring

/-- A normal number of Binary32 in binary64 (R134). -/
theorem normalMagnitude_widen (e f : Nat) :
    normalMagnitude binary64 (e + 896) (f * 2 ^ 29) = normalMagnitude binary32 e f := by
  have hunits : 2 ^ 52 + f * 2 ^ 29 = (2 ^ 23 + f) * 2 ^ 29 := by ring
  have hexp : ((e + 896 : Nat) : Int) - (1023 : Nat) - (52 : Nat) + (29 : Nat) =
      (e : Int) - (127 : Nat) - (23 : Nat) := by omega
  rw [normalMagnitude_eq, normalMagnitude_eq, hunits, natCast_mul_two_pow_mul_pow2, hexp]

/-- A subnormal of Binary32 with its most significant bit at `k` is a normal number of binary64 (R134). -/
theorem normalMagnitude_widen_subnormal {f k : Nat} (hlo : 2 ^ k ≤ f) (hk : k ≤ 52) :
    normalMagnitude binary64 (k + 874) ((f - 2 ^ k) * 2 ^ (52 - k)) = subnormalMagnitude binary32 f := by
  have hunits : 2 ^ 52 + (f - 2 ^ k) * 2 ^ (52 - k) = f * 2 ^ (52 - k) := by
    have htop : 2 ^ 52 = 2 ^ k * 2 ^ (52 - k) := by rw [← pow_add, Nat.add_sub_cancel' hk]
    rw [htop, ← add_mul, Nat.add_sub_cancel' hlo]
  have hexp : ((k + 874 : Nat) : Int) - (1023 : Nat) - (52 : Nat) + ((52 - k : Nat) : Int) =
      1 - (127 : Nat) - (23 : Nat) := by omega
  rw [normalMagnitude_eq, subnormalMagnitude_eq, hunits, natCast_mul_two_pow_mul_pow2, hexp]

/-- The bits of a subnormal below its most significant one fit the fraction field of binary64. -/
theorem widen_fraction_lt {f k : Nat} (hhi : f < 2 ^ (k + 1)) (hk : k ≤ 52) :
    (f - 2 ^ k) * 2 ^ (52 - k) < 2 ^ 52 := by
  have htop : 2 ^ 52 = 2 ^ k * 2 ^ (52 - k) := by rw [← pow_add, Nat.add_sub_cancel' hk]
  rw [htop]
  refine Nat.mul_lt_mul_of_pos_right ?_ (Nat.two_pow_pos _)
  rw [pow_succ] at hhi
  have := Nat.two_pow_pos k
  omega

section
variable {bv : BitVec 32}

theorem val_widen_of_exponent_max (he : (fields binary32 bv).exponent.toNat = 255)
    (hf : (fields binary32 bv).fraction.toNat = 0) : val binary64 (widen bv) = val binary32 bv := by
  have hbv := pack_fields binary32_admitted bv
  rw [he, hf] at hbv
  rw [widen_of_exponent_max he, (val_eq_inf_iff binary64_admitted _ _).mpr rfl]
  exact ((val_eq_inf_iff binary32_admitted bv _).mpr hbv.symm).symm

theorem val_widen_of_zero (he : (fields binary32 bv).exponent.toNat = 0)
    (hf : (fields binary32 bv).fraction.toNat = 0) : val binary64 (widen bv) = val binary32 bv := by
  have hbv := pack_fields binary32_admitted bv
  rw [he, hf] at hbv
  rw [widen_of_zero he hf, val_pack_zero binary64_admitted, ← val_pack_zero binary32_admitted, hbv]

theorem val_widen_of_subnormal (he : (fields binary32 bv).exponent.toNat = 0)
    (hf0 : (fields binary32 bv).fraction.toNat ≠ 0) : val binary64 (widen bv) = val binary32 bv := by
  have hf : (fields binary32 bv).fraction.toNat < 2 ^ 23 := (fields binary32 bv).fraction.isLt
  have hbv := pack_fields binary32_admitted bv
  rw [he] at hbv
  have hval := val_pack_subnormal binary32_admitted (fields binary32 bv).sign hf hf0
  rw [hbv] at hval
  rw [hval, widen_of_subnormal he rfl hf0]
  generalize (fields binary32 bv).fraction.toNat = f at hf hf0
  have hlo : 2 ^ msb f ≤ f := Nat.log2_self_le hf0
  have hhi : f < 2 ^ (msb f + 1) := Nat.lt_log2_self
  have hk : msb f < 23 := (Nat.log2_lt hf0).mpr hf
  have hmax : maxExponent binary64 = 2047 := by decide
  rw [val_pack_normal binary64_admitted _ (widen_fraction_lt hhi (by omega)) (by omega) (by omega),
    normalMagnitude_widen_subnormal hlo (by omega)]

theorem val_widen_of_normal (he0 : (fields binary32 bv).exponent.toNat ≠ 0)
    (hmax : (fields binary32 bv).exponent.toNat ≠ 255) : val binary64 (widen bv) = val binary32 bv := by
  have hf : (fields binary32 bv).fraction.toNat < 2 ^ 23 := (fields binary32 bv).fraction.isLt
  have hmax32 : maxExponent binary32 = 255 := by decide
  have hmax64 : maxExponent binary64 = 2047 := by decide
  have he := fields_exponent_le (F := binary32) bv
  have hval := val_pack_normal binary32_admitted (fields binary32 bv).sign hf he0 (by omega)
  rw [pack_fields binary32_admitted] at hval
  rw [hval, widen_of_normal he0 hmax]
  generalize (fields binary32 bv).exponent.toNat = e at he0 hmax he
  generalize (fields binary32 bv).fraction.toNat = f at hf
  have hf64 : f * 2 ^ 29 < 2 ^ 52 := by omega
  rw [val_pack_normal binary64_admitted _ hf64 (by omega) (by omega), normalMagnitude_widen]

/-- `widen` keeps the value of every pattern that is not NaN, by the four kinds of patterns it tells apart (R134,
R138). -/
theorem val_widen (h : val binary32 bv ≠ .nan) : val binary64 (widen bv) = val binary32 bv := by
  by_cases hmax : (fields binary32 bv).exponent.toNat = 255
  · have hf : (fields binary32 bv).fraction.toNat = 0 := by
      by_contra hf
      exact h ((val_eq_nan_iff (F := binary32) (by decide) bv).mpr ⟨hmax, hf⟩)
    exact val_widen_of_exponent_max hmax hf
  by_cases he : (fields binary32 bv).exponent.toNat = 0
  · by_cases hf : (fields binary32 bv).fraction.toNat = 0
    · exact val_widen_of_zero he hf
    · exact val_widen_of_subnormal he hf
  · exact val_widen_of_normal he hmax

end

/-- On the patterns that are not NaN, `enc_bits` to binary64 is `widen`, since `widen` keeps the value (R134). -/
theorem encBits_eq_widen (draw : Bool × Nat) {bv : BitVec 32} (h : val binary32 bv ≠ .nan) :
    encBits binary64 draw (val binary32 bv) = widen bv := by
  have hw := val_widen h
  rw [← hw] at h ⊢
  exact encBits_val binary64_admitted draw h

/-! ### What DECODE drives -/

/-- DECODE.B32 of a pattern that is not NaN drives its widened word (R130, R134). -/
theorem exec_decodeB32_of_val_ne_nan {s : State} {bv : BitVec 32}
    (hparse : parse s.params binary32 s.ports.text = .ok bv) (hv : val binary32 bv ≠ .nan) :
    exec .decodeB32 s = .next (s.drive (.value (widen bv))) := by
  rw [exec_decodeB32, decodeFrom_of_val_ne_nan hparse hv, encBits_eq_widen _ hv]

/-- Settles O38: `widen` keeps the value, and the encoding of a value is its one pattern. -/
theorem decodeB32ComputesWiden : Obligations.DecodeB32ComputesWiden :=
  fun _ _ hparse hv => succeeds_of_exec_drive (exec_decodeB32_of_val_ne_nan hparse hv) rfl rfl

/-- Settles O39: the word is the widened pattern, and the pattern's value encodes to the pattern. -/
theorem decodeB32IsExact : Obligations.DecodeB32IsExact := by
  intro s bv draw hparse hv
  refine succeeds_of_exec_drive (exec_decodeB32_of_val_ne_nan hparse hv) rfl ⟨widen bv, rfl, val_widen hv, ?_⟩
  rw [val_widen hv, encBits_val binary32_admitted draw hv]

/-- Only the rendered pattern spells a pattern (R41, R69). -/
theorem eq_render_of_spellsBits {t : Text} {bv : BitVec F.totalBits} (h : SpellsBits t bv) : t = render F bv := by
  obtain ⟨hlen, hbit⟩ := h
  obtain ⟨hlen', hbit'⟩ := spellsBits_render F bv
  apply List.ext_getElem?
  intro k
  by_cases hk : k < F.totalBits
  · rw [hbit k hk, hbit' k hk]
  · rw [List.getElem?_eq_none (by omega), List.getElem?_eq_none (by omega)]

/-- A text whose stripped characters spell a pattern parses to it (R68). -/
theorem parse_of_spellsBits {P : Params} {t : Text} {bv : BitVec F.totalBits} (h : SpellsBits (strip P t) bv) :
    parse P F t = .ok bv := by
  have hstrip := eq_render_of_spellsBits h
  rw [parse_eq_ok h.1 (by rw [hstrip, render_all_isBit]), hstrip, patternOf_render]

/-- Settles O40: the text parses to the word it spells, and DECODE.B64 drives the pattern itself. -/
theorem decodeB64ReadsTheBits : Obligations.DecodeB64ReadsTheBits := by
  intro s w hspell hw
  have hparse : parse s.params binary64 s.ports.text = .ok w := parse_of_spellsBits hspell
  have hv : val binary64 w ≠ .nan := mt (val_binary64_eq_nan_iff w).mp hw
  have hexec : exec .decodeB64 s = .next (s.drive (.value w)) := by
    rw [exec_decodeB64, decodeFrom_of_val_ne_nan hparse hv, id_eq]
  exact succeeds_of_exec_drive hexec rfl rfl

/-- Settles O41: every draw gives a NaN word, and one draw is counted. -/
theorem nanDecodesToSomeNanWord : Obligations.NanDecodesToSomeNanWord := by
  intro c hc s bv hparse hv
  obtain ⟨w, hexec, hw⟩ := exec_decode_of_val_eq_nan hc hparse hv
  exact ⟨_, hexec, rfl, ⟨rfl, rfl, rfl⟩, rfl, w, rfl, (val_binary64_eq_nan_iff w).mp hw⟩

end Sys2Proof.Machine
end

section
/-! PROOFS. The Field Extractor: the pattern of a text put together from its three parts, and EXTRACT, which drives the
fields of the pattern its text parses to, alone (R152), after ENCODE (R155) and before CLASSIFY (R153). -/

namespace Sys2Proof.Machine

open Sys2Proof.Claims

/-! ### The text of three fields -/

theorem msbFirst_charBit_lt {u : Text} {n : Nat} (h : u.length = n) : msbFirst (u.map charBit) < 2 ^ n := by
  simpa [h] using msbFirst_lt (u.map charBit)

section
variable {F : FormatDescriptor} (hF : F.admitted) {sign : CharCode} {ex fr : Text}
  (hex : ex.length = F.exponentBits) (hfr : fr.length = F.fractionBits)
include hF hex hfr

/-- A sign character, an exponent and a fraction make a text of the format's length (R25). -/
theorem length_fieldTexts : (sign :: (ex ++ fr)).length = F.totalBits := by
  rw [List.length_cons, List.length_append, hex, hfr, hF.2.1]
  omega

/-- The pattern of a text is the number its bits spell, part by part (R68, R70, R71). -/
theorem patternOf_eq_pack : patternOf F (sign :: (ex ++ fr)) =
    pack F (charBit sign) (msbFirst (ex.map charBit)) (msbFirst (fr.map charBit)) := by
  apply BitVec.eq_of_toNat_eq
  rw [patternOf_toNat (length_fieldTexts hF hex hfr),
    pack_toNat hF _ (Nat.le_sub_one_of_lt (msbFirst_charBit_lt hex)) (msbFirst_charBit_lt hfr), List.map_cons,
    List.map_append, msbFirst_cons, msbFirst_append, List.length_append, List.length_map, List.length_map, hex, hfr,
    add_assoc]

/-- The fields of a text's pattern are the numbers its three parts spell (R152). -/
theorem fields_patternOf :
    (fields F (patternOf F (sign :: (ex ++ fr)))).sign = charBit sign ∧
    (fields F (patternOf F (sign :: (ex ++ fr)))).exponent.toNat = msbFirst (ex.map charBit) ∧
    (fields F (patternOf F (sign :: (ex ++ fr)))).fraction.toNat = msbFirst (fr.map charBit) := by
  have he : msbFirst (ex.map charBit) ≤ maxExponent F := Nat.le_sub_one_of_lt (msbFirst_charBit_lt hex)
  have hf := msbFirst_charBit_lt hfr
  rw [patternOf_eq_pack hF hex hfr]
  exact ⟨fields_pack_sign hF _ he hf, fields_pack_exponent hF _ he hf, fields_pack_fraction hF _ he hf⟩

end

/-- The sign character on `SIGN_OUT` (R41, R47). -/
theorem ofBool_charBit (ch : CharCode) : BitVec.ofBool (charBit ch) = if ch = charOne then 1#1 else 0#1 := by
  rw [charBit]
  split
  case isTrue h => rw [beq_iff_eq.mpr h]; rfl
  case isFalse h => rw [beq_eq_false_iff_ne.mpr h]; rfl

/-! ### The triple EXTRACT drives -/

/-- The three ports show a field triple: the sign bit, and exponent and fraction as numbers (R29, R47). -/
def ShowsTriple {F : FormatDescriptor} (t : FieldTriple F) (s : State) : Prop :=
  s.signOutPort = some (BitVec.ofBool t.sign) ∧ s.expOutPort.map BitVec.toNat = some t.exponent.toNat ∧
  s.fracOutPort.map BitVec.toNat = some t.fraction.toNat

theorem showsTriple_drive_tripleResult {F : FormatDescriptor} (he : F.exponentBits ≤ 11) (hf : F.fractionBits ≤ 52)
    (t : FieldTriple F) (s : State) : ShowsTriple t (s.drive (tripleResult F t)) :=
  ⟨rfl, congrArg some (BitVec.toNat_setWidth_of_le he), congrArg some (BitVec.toNat_setWidth_of_le hf)⟩

theorem extractCommands_fit {c : Instr × FormatDescriptor} (hc : c ∈ extractCommands) :
    c.2.admitted ∧ c.2.exponentBits ≤ 11 ∧ c.2.fractionBits ≤ 52 := by
  fin_cases hc <;> decide

theorem exec_extractCommand {c : Instr × FormatDescriptor} (hc : c ∈ extractCommands) (s : State) :
    exec c.1 s = .next (extractFields c.2 s) := by
  fin_cases hc <;> rfl

/-- EXTRACT of a text that parses succeeds with the fields of its pattern (R150, R151). -/
theorem succeeds_extract {c : Instr × FormatDescriptor} (hc : c ∈ extractCommands) {s : State}
    {bv : BitVec c.2.totalBits} (h : parse s.params c.2 s.ports.text = .ok bv) :
    Succeeds c.1 s (ShowsTriple (fields c.2 bv)) := by
  obtain ⟨-, he, hf⟩ := extractCommands_fit hc
  have hexec : exec c.1 s = .next (s.drive (tripleResult c.2 (fields c.2 bv))) := by
    rw [exec_extractCommand hc, extractFields_of_parse h]
  exact succeeds_of_exec_drive hexec rfl (showsTriple_drive_tripleResult he hf _ s)

/-- Settles O43: the text parses, and the fields of its pattern are the numbers its three parts spell. -/
theorem extractSplitsByPosition : Obligations.ExtractSplitsByPosition := by
  intro c hc s sign ex fr hstrip hex hfr hbits
  obtain ⟨hF, -⟩ := extractCommands_fit hc
  obtain ⟨hsign, hexp, hfrac⟩ := fields_patternOf hF (sign := sign) hex hfr
  have hparse : parse s.params c.2 s.ports.text = .ok (patternOf c.2 (sign :: (ex ++ fr))) := by
    rw [← hstrip]
    apply parse_eq_ok
    · rw [hstrip, length_fieldTexts hF hex hfr]
    · rw [hstrip, List.all_eq_true]
      exact fun ch hch => (isBit_iff ch).mpr (hbits ch hch)
  refine succeeds_mono (succeeds_extract hc hparse) fun t ⟨hs, he, hf⟩ => ⟨?_, ?_, ?_⟩
  · rw [hs, hsign, ofBool_charBit]
  · rw [he, hexp]
    rfl
  · rw [hf, hfrac]
    rfl

/-! ### EXTRACT in a chain -/

theorem extract_mem_of_formats {u : UnitsOf} (hu : u ∈ formats) : (u.extract, u.format) ∈ extractCommands := by
  fin_cases hu <;> simp

/-- Settles O44: the text ENCODE drives has no whitespace and parses to the pattern it was rendered from. -/
theorem encodeThenExtractGivesTheFields : Obligations.EncodeThenExtractGivesTheFields := by
  intro u hu s hP
  let s₁ := encodeTo u.format s
  let bv := encBits u.format (Config.nanEncDraw s.draws u.format s.ports.valIn) (val binary64 s.ports.valIn)
  let s₂ := s₁.present (s₁.ports.withText (render u.format bv))
  have hfeed : s₁.feedText = some s₂ := State.feedText_eq_some.mpr ⟨_, txtOutPort_encodeTo u.format s, rfl⟩
  have hparse : parse s₂.params u.format s₂.ports.text = .ok bv := by
    rw [State.present_ports, Ports.text_withText]
    exact parse_render hP bv
  obtain ⟨s₃, hexec, hok, -, -, hfields⟩ := succeeds_extract (extract_mem_of_formats hu) hparse
  exact ⟨s₁, s₂, s₃, _, bv, exec_encode (encode_mem_of_formats hu) s, hfeed, hexec, rfl, hok, hfields⟩

/-- Settles O49: the fields EXTRACT drives are in the ranges CLASSIFY of the same format checks. -/
theorem extractThenClassifyNeverRaises : Obligations.ExtractThenClassifyNeverRaises := by
  intro u hu s bv hparse
  let t := fields u.format bv
  let s₁ := s.drive (tripleResult u.format t)
  let s₂ := s₁.present { s₁.ports with expIn := t.exponent.setWidth 11, fracIn := t.fraction.setWidth 52 }
  have hextract : exec u.extract s = .next s₁ := by rw [exec_extract hu, extractFields_of_parse hparse]
  have hfeed : s₁.feedFields = some s₂ := State.feedFields_eq_some.mpr ⟨_, _, rfl, rfl, rfl⟩
  have hclassify := exec_classify_of_fields hu (s := s₂) t rfl rfl
  exact ⟨s₁, s₂, _, hextract, hfeed, hclassify, rfl, rfl, rfl⟩

end Sys2Proof.Machine
end

section
/-! PROOFS. The Classifier: which of the five conditions of R163 holds for a category, the two CLASSIFY commands, and
the category of a pattern beside its value (R166). -/

namespace Sys2Proof.Machine

open Sys2Proof.Claims

/-! ### The five conditions -/

/-- Everything `classify` can answer, each category with its condition (R163). -/
theorem classify_cases {w : Nat} (e : BitVec w) (f : Nat) :
    ((e.toNat = 0 ∧ f = 0) ∧ classify w e f = .zero) ∨
    ((e.toNat = 0 ∧ f ≠ 0) ∧ classify w e f = .subnormal) ∨
    ((0 < e.toNat ∧ e.toNat < 2 ^ w - 1) ∧ classify w e f = .normal) ∨
    ((e.toNat = 2 ^ w - 1 ∧ f = 0) ∧ classify w e f = .infinity) ∨
    ((e.toNat = 2 ^ w - 1 ∧ f ≠ 0) ∧ classify w e f = .nan) := by
  have he := e.isLt
  unfold classify
  split_ifs <;> simp <;> omega

/-- The code of the category is the one R162 gives its condition; an exponent field of one bit or more keeps all zeros
and all ones apart. -/
theorem hasCategory_classify {w : Nat} (hw : 1 ≤ w) (e : BitVec w) (f : Nat) :
    HasCategory (2 ^ w - 1) e.toNat f (classify w e f).code := by
  have hmax : 2 ≤ 2 ^ w := Nat.le_self_pow (by omega) 2
  rcases classify_cases e f with ⟨h, hc⟩ | ⟨h, hc⟩ | ⟨h, hc⟩ | ⟨h, hc⟩ | ⟨h, hc⟩ <;>
    simp only [HasCategory, hc, ValueCategory.code] <;> simp <;> omega

/-- Settles O45: the code of each category is that of its condition. -/
theorem classifyFollowsItsFiveConditions : Obligations.ClassifyFollowsItsFiveConditions :=
  fun _ e f hw => hasCategory_classify hw e f

/-! ### The commands -/

section
variable {i : Instr} {s : State}

/-- An evaluation that drives the category of a pair of fields succeeds with the code of their condition. -/
theorem succeeds_of_exec_classify {w : Nat} {e : BitVec w} {f : Nat} (hw : 1 ≤ w)
    (hexec : exec i s = .next (s.drive (.category (classify w e f)))) :
    Succeeds i s (fun t => ∃ code, t.catOutPort = some code ∧ HasCategory (2 ^ w - 1) e.toNat f code) :=
  succeeds_of_exec_drive hexec rfl ⟨_, State.catOutPort_of _ rfl, hasCategory_classify hw e f⟩

/-- An evaluation that raises an error drives its reported code alone and changes nothing else (R177, R179). -/
theorem failsWith_of_exec_raise {k : ErrorKind} (hexec : exec i s = .next (s.raise k)) :
    FailsWith (reportedKind s.params.errFold k).code i s :=
  ⟨s.raise k, hexec,
    ⟨s.raise_errPort k, ErrorKind.code_ne_zero _, rfl, rfl, rfl, rfl, rfl, rfl, rfl, rfl, rfl, rfl, rfl⟩,
    ⟨rfl, rfl, rfl⟩, rfl⟩

end

/-- The ranges of binary32's fields, in numbers (R160). -/
theorem Ports.fieldsInRange_binary32_iff (p : Ports) :
    p.fieldsInRange binary32 = true ↔ p.expIn.toNat ≤ 255 ∧ p.fracIn.toNat ≤ 2 ^ 23 - 1 := by
  rw [Ports.fieldsInRange, Bool.and_eq_true, decide_eq_true_eq, decide_eq_true_eq]
  rfl

/-- OperandRange is reported with code 3 in every build (R171, R173). -/
theorem reportedKind_operandRange (fold : ErrFold) : reportedKind fold .operandRange = .operandRange := by
  cases fold <;> rfl

/-- Settles O46: the two answers of CLASSIFY.B32 are for the operands in range, which fit an 8-bit exponent, and for all
others. -/
theorem classifyB32InRangeAndOutOfRange : Obligations.ClassifyB32InRangeAndOutOfRange := by
  refine ⟨decode_encode .classifyB32, fun s => ?_⟩
  have hrange := s.ports.fieldsInRange_binary32_iff
  rcases execClassifyB32_cases s with ⟨hin, hexec⟩ | ⟨hout, hexec⟩
  · obtain ⟨hexp, hfrac⟩ := hrange.mp hin
    have htoNat : (s.ports.expIn.setWidth 8).toNat = s.ports.expIn.toNat := by
      rw [BitVec.toNat_setWidth, Nat.mod_eq_of_lt (by omega)]
    refine ⟨fun _ _ => ?_, fun hnot => by omega⟩
    have hsucceeds := succeeds_of_exec_classify (i := .classifyB32) (by decide) hexec
    rwa [htoNat] at hsucceeds
  · have hnot : ¬ (s.ports.expIn.toNat ≤ 255 ∧ s.ports.fracIn.toNat ≤ 2 ^ 23 - 1) := by
      rw [← hrange, hout]
      exact Bool.false_ne_true
    refine ⟨fun hexp hfrac => absurd ⟨hexp, hfrac⟩ hnot, fun _ => ?_⟩
    have hfails := failsWith_of_exec_raise (i := .classifyB32) hexec
    rwa [reportedKind_operandRange] at hfails

theorem exec_classifyB64 (s : State) :
    exec .classifyB64 s = .next (s.drive (.category (classify 11 s.ports.expIn s.ports.fracIn.toNat))) := rfl

/-- Settles O47: the exponent port is as wide as binary64's exponent field. -/
theorem classifyB64CoversEveryOperand : Obligations.ClassifyB64CoversEveryOperand :=
  ⟨decode_encode .classifyB64, fun s => succeeds_of_exec_classify (by decide) (exec_classifyB64 s)⟩

/-! ### The category and the value -/

section
variable {F : FormatDescriptor}

/-- A subnormal is below the smallest normal, `2^(1-B)` (R131). -/
theorem subnormalMagnitude_lt {f : Nat} (hf : f < 2 ^ F.fractionBits) :
    subnormalMagnitude F f < (2 : ℚ) ^ (1 - (F.bias : ℤ)) := by
  have hfrac : (f : ℚ) / pow2 F.fractionBits < 1 := by
    rw [div_lt_one (pow2_pos _), pow2_natCast]
    exact_mod_cast hf
  rw [← pow2_eq_zpow]
  exact mul_lt_of_lt_one_left (pow2_pos _) hfrac

/-- A normal is not below the smallest one, `2^(1-B)` (R131). -/
theorem le_normalMagnitude {e : Nat} (he : 0 < e) (f : Nat) :
    (2 : ℚ) ^ (1 - (F.bias : ℤ)) ≤ normalMagnitude F e f := by
  have hfrac : 0 ≤ (f : ℚ) / pow2 F.fractionBits := div_nonneg (Nat.cast_nonneg f) (pow2_pos _).le
  calc (2 : ℚ) ^ (1 - (F.bias : ℤ)) ≤ 2 ^ ((e : ℤ) - F.bias) := zpow_le_zpow_right₀ one_le_two (by omega)
    _ = pow2 ((e : ℤ) - F.bias) := (pow2_eq_zpow _).symm
    _ ≤ normalMagnitude F e f := le_mul_of_one_le_left (pow2_pos _).le (le_add_of_nonneg_right hfrac)

end

/-- Settles O48: each category is that of one constructor, and the exponent decides on which side of the smallest
normal a finite magnitude lies. -/
theorem categoryAgreesWithValue : Obligations.CategoryAgreesWithValue := by
  intro F _ bv c
  have hsub := subnormalMagnitude_lt (fields F bv).fraction.isLt
  rcases classify_cases (fields F bv).exponent (fields F bv).fraction.toNat with
    ⟨-, hc⟩ | ⟨-, hc⟩ | ⟨⟨hpos, -⟩, hc⟩ | ⟨-, hc⟩ | ⟨-, hc⟩
  · simp [c, val, hc]
  · simp [c, val, hc, hsub]
  · simp [c, val, hc, le_normalMagnitude hpos]
  · simp [c, val, hc]
  · simp [c, val, hc]

end Sys2Proof.Machine
end

section
/-! PROOFS. Errors: what is reported for each kind, and which evaluations end in which. A reserved word raises
IllegalCommand, a text command the error its text does not parse with, CLASSIFY.B32 OperandRange; every other evaluation
drives its row. -/

namespace Sys2Proof.Machine

open Sys2Proof.Claims

/-! ### The reported code -/

theorem code_reportedKind_lengthMismatch (fold : ErrFold) : (reportedKind fold .lengthMismatch).code = 1#3 := by
  cases fold <;> rfl

/-- Folding takes InvalidCharacter's own code away (R173). -/
theorem code_reportedKind_invalidCharacter (fold : ErrFold) :
    (reportedKind fold .invalidCharacter).code = if fold = .folded then 1#3 else 2#3 := by
  cases fold <;> rfl

theorem code_reportedKind_illegalCommand (fold : ErrFold) : (reportedKind fold .illegalCommand).code = 4#3 := by
  cases fold <;> rfl

/-- A raised error stands on `ERR` alone (R177). -/
theorem failedWith_raise (k : ErrorKind) (s : State) :
    (s.raise k).failedWith (reportedKind s.params.errFold k).code :=
  ⟨s.raise_errPort k, ErrorKind.code_ne_zero _, rfl, rfl, rfl, rfl, rfl, rfl, rfl, rfl, rfl, rfl, rfl⟩

/-! ### Reserved words -/

/-- Settles O5: a word of a reserved operation is rejected by the decoder, and the step raises IllegalCommand. -/
theorem reservedWordRaisesIllegalCommand : Obligations.ReservedWordRaisesIllegalCommand := by
  intro s hop
  have hreserved : 4 < (opField s.presentNext.commandWord).toNat := by
    rw [opField, State.commandWord]
    rcases hop with h | h | h <;> rw [h] <;> decide
  have hfails : (illegalCommand s.presentNext).failedWith 4#3 :=
    code_reportedKind_illegalCommand s.presentNext.params.errFold ▸ failedWith_raise _ _
  exact ⟨_, step_of_decode_error (decode_of_reserved hreserved), hfails, ⟨rfl, rfl, rfl⟩, s.presentNext_draws⟩

/-! ### Texts that do not parse -/

section
variable {P : Params} {F : FormatDescriptor} {t : Text}

/-- The length is looked at first (R172, R178). -/
theorem parse_of_length_ne (hlen : (strip P t).length ≠ F.totalBits) : parse P F t = .error .lengthMismatch := by
  rcases parse_cases P F t with ⟨-, e⟩ | ⟨heq, -⟩ | ⟨heq, -⟩
  · exact e
  · exact absurd heq hlen
  · exact absurd heq hlen

/-- Of the right length, a text with a character that is no bit is rejected for its content (R173). -/
theorem parse_of_mem_not_isBit (hlen : (strip P t).length = F.totalBits) {ch : CharCode} (hch : ch ∈ strip P t)
    (hbit : ¬ isBit ch = true) : parse P F t = .error .invalidCharacter := by
  rcases parse_cases P F t with ⟨hne, -⟩ | ⟨-, -, e⟩ | ⟨-, hall, -⟩
  · exact absurd hlen hne
  · exact e
  · exact absurd (List.all_eq_true.mp hall ch hch) hbit

/-- The two errors of `parse` are reported with the two codes of the text commands (R176). -/
theorem code_mem_of_parse_error {k : ErrorKind} (h : parse P F t = .error k) (fold : ErrFold) :
    (reportedKind fold k).code ∈ [1#3, 2#3] := by
  rcases parse_cases P F t with ⟨-, e⟩ | ⟨-, -, e⟩ | ⟨-, -, e⟩ <;> rw [e] at h <;> cases h
  · rw [code_reportedKind_lengthMismatch]
    decide
  · rw [code_reportedKind_invalidCharacter]
    cases fold <;> decide

end

/-! ### The text commands -/

theorem decodeFrom_of_parse_error {F : FormatDescriptor} {word : BitVec F.totalBits → Word} {s : State}
    {k : ErrorKind} (h : parse s.params F s.ports.text = .error k) : decodeFrom F word s = s.raise k := by
  simp only [decodeFrom, h]

theorem extractFields_of_parse_error {F : FormatDescriptor} {s : State} {k : ErrorKind}
    (h : parse s.params F s.ports.text = .error k) : extractFields F s = s.raise k := by
  simp only [extractFields, h]

/-- DECODE's last part drives `VAL_OUT` and nothing else, for a NaN as for any other value. -/
theorem driveDecoded_drives_value (F : FormatDescriptor) (bv : BitVec F.totalBits) (w : Word) (s : State) :
    (driveDecoded F bv w s).succeeded ∧ portsDriven (driveDecoded F bv w s) = rowOf .decodeB32 := by
  rcases driveDecoded_cases F bv w s with ⟨-, e⟩ | ⟨-, e⟩ <;> rw [e] <;> exact ⟨rfl, rfl⟩

section
variable {c : Instr × FormatDescriptor} (hc : c ∈ textCommands) {s : State}
include hc

/-- A text command raises the error its text does not parse with. -/
theorem exec_textCommand_of_parse_error {k : ErrorKind} (h : parse s.params c.2 s.ports.text = .error k) :
    exec c.1 s = .next (s.raise k) := by
  fin_cases hc
  · rw [exec_decodeB32, decodeFrom_of_parse_error h]
  · rw [exec_decodeB64, decodeFrom_of_parse_error h]
  · exact congrArg Host.Outcome.next (extractFields_of_parse_error h)
  · exact congrArg Host.Outcome.next (extractFields_of_parse_error h)

/-- A text command succeeds on a text that parses, with its row driven (R62). -/
theorem exec_textCommand_of_parse {bv : BitVec c.2.totalBits} (h : parse s.params c.2 s.ports.text = .ok bv) :
    ∃ t, exec c.1 s = .next t ∧ t.succeeded ∧ portsDriven t = rowOf c.1 := by
  fin_cases hc
  · exact ⟨_, exec_decodeB32 s, decodeFrom_of_parse h ▸ driveDecoded_drives_value ..⟩
  · exact ⟨_, exec_decodeB64 s, decodeFrom_of_parse h ▸ driveDecoded_drives_value ..⟩
  · exact ⟨_, congrArg Host.Outcome.next (extractFields_of_parse h), rfl, rfl⟩
  · exact ⟨_, congrArg Host.Outcome.next (extractFields_of_parse h), rfl, rfl⟩

theorem codesRaised_textCommand : codesRaised c.1 = [1#3, 2#3] := by
  fin_cases hc <;> rfl

end

/-- Settles O19: the three clauses are the three answers of `parse`, length before content. -/
theorem textErrorsAreReported : Obligations.TextErrorsAreReported := by
  intro c hc s
  refine ⟨fun hlen => ?_, fun hlen ⟨ch, hch, hzero, hone⟩ => ?_, fun hlen hbits => ?_⟩
  · rw [← code_reportedKind_lengthMismatch s.params.errFold]
    exact failsWith_of_exec_raise (exec_textCommand_of_parse_error hc (parse_of_length_ne hlen))
  · have hbit : ¬ isBit ch = true := fun h => ((isBit_iff ch).mp h).elim hzero hone
    rw [← code_reportedKind_invalidCharacter]
    exact failsWith_of_exec_raise (exec_textCommand_of_parse_error hc (parse_of_mem_not_isBit hlen hch hbit))
  · have hall : (strip s.params s.ports.text).all isBit = true :=
      List.all_eq_true.mpr fun ch hch => (isBit_iff ch).mpr (hbits ch hch)
    obtain ⟨t, hexec, hok, -⟩ := exec_textCommand_of_parse hc (parse_eq_ok hlen hall)
    exact ⟨t, hexec, hok⟩

/-! ### Every command -/

/-- The evaluation ends in one of the two ways R170 knows: the command's row driven, or one of its errors. -/
def EndsInRowOrError (i : Instr) (s : State) : Prop :=
  ∃ t, exec i s = .next t ∧ ((t.succeeded ∧ portsDriven t = rowOf i) ∨ ∃ c ∈ codesRaised i, t.failedWith c)

section
variable {i : Instr} {s : State}

theorem EndsInRowOrError.of_success {t : State} (hexec : exec i s = .next t) (hok : t.succeeded)
    (hrow : portsDriven t = rowOf i) : EndsInRowOrError i s :=
  ⟨t, hexec, .inl ⟨hok, hrow⟩⟩

theorem EndsInRowOrError.of_raise {k : ErrorKind} (hexec : exec i s = .next (s.raise k))
    (hcode : (reportedKind s.params.errFold k).code ∈ codesRaised i) : EndsInRowOrError i s :=
  ⟨_, hexec, .inr ⟨_, hcode, failedWith_raise k s⟩⟩

theorem EndsInRowOrError.of_textCommand {c : Instr × FormatDescriptor} (hc : c ∈ textCommands) :
    EndsInRowOrError c.1 s := by
  cases h : parse s.params c.2 s.ports.text with
  | ok bv =>
    obtain ⟨t, hexec, hok, hrow⟩ := exec_textCommand_of_parse hc h
    exact .of_success hexec hok hrow
  | error k =>
    refine .of_raise (exec_textCommand_of_parse_error hc h) ?_
    rw [codesRaised_textCommand hc]
    exact code_mem_of_parse_error h _

end

/-- Settles O10: FMTINFO, ENCODE and CLASSIFY.B64 always drive their row, the text commands answer as `parse` does, and
CLASSIFY.B32 by the range of its operands. -/
theorem eachCommandDrivesItsRowOrOneOfItsErrors : Obligations.EachCommandDrivesItsRowOrOneOfItsErrors := by
  intro i s
  change EndsInRowOrError i s
  cases i with
  | fmtinfoB32 => exact .of_success (exec_fmtinfoB32 s) rfl rfl
  | fmtinfoB64 => exact .of_success (exec_fmtinfoB64 s) rfl rfl
  | encodeB32 => exact .of_success rfl (encodeTo_succeeded binary32 s) rfl
  | encodeB64 => exact .of_success rfl (encodeTo_succeeded binary64 s) rfl
  | decodeB32 => exact .of_textCommand (c := (.decodeB32, binary32)) (by simp)
  | decodeB64 => exact .of_textCommand (c := (.decodeB64, binary64)) (by simp)
  | extractB32 => exact .of_textCommand (c := (.extractB32, binary32)) (by simp)
  | extractB64 => exact .of_textCommand (c := (.extractB64, binary64)) (by simp)
  | classifyB32 =>
    rcases execClassifyB32_cases s with ⟨-, hexec⟩ | ⟨-, hexec⟩
    · exact .of_success hexec rfl rfl
    · refine .of_raise hexec ?_
      rw [reportedKind_operandRange]
      decide
  | classifyB64 => exact .of_success (exec_classifyB64 s) rfl rfl

end Sys2Proof.Machine
end

section
/-! PROOFS. Runs: the invariant holds of every state a build can reach, and from a state that meets it the block runs
on, for the evaluation after an error is an ordinary one (R180). -/

namespace Sys2Proof.Machine

theorem run_succ_of_step {s t : State} (h : step s = .next t) (k : Nat) :
    Sys2Proof.core.run (k + 1) s = Sys2Proof.core.run k t := by
  have hcore : Sys2Proof.core.step s = .next t := h
  simp only [Host.Core.run, hcore]

/-- From a state that meets the invariant every step answers one that meets it, so no run stops (R170, R181). -/
theorem State.Inv.neverStops {s : State} (hs : s.Inv) : NeverStops s := by
  intro k
  induction k generalizing s with
  | zero => exact ⟨s, rfl⟩
  | succ k ih =>
    obtain ⟨t, hstep, ht⟩ := step_next_inv hs
    obtain ⟨u, hu⟩ := ih ht
    exact ⟨u, (run_succ_of_step hstep k).trans hu⟩

/-- What the caller and the evaluations do from power-up on keeps the invariant and the build (R34). -/
theorem Reachable.inv_and_params {P : Params} {s : State} (hP : P.wf) (h : Reachable P s) :
    s.Inv ∧ s.params = P := by
  induction h with
  | powerUp => exact ⟨powerUp_inv hP, rfl⟩
  | present p _ hp ih =>
    obtain ⟨hs, rfl⟩ := ih
    exact ⟨hs.present hp, rfl⟩
  | lineUp ps _ hps ih =>
    obtain ⟨hs, rfl⟩ := ih
    exact ⟨hs.lineUp hps, rfl⟩
  | step _ hstep ih =>
    obtain ⟨hs, rfl⟩ := ih
    obtain ⟨hparams, -⟩ := stepFrame _ _ hstep
    exact ⟨stepKeepsTheInvariant _ _ hs hstep, hparams⟩

/-- Settles O7: a reachable state meets the invariant by induction on how it is reached, and the invariant alone keeps a
run going. -/
theorem reachableStatesRunOn : Obligations.ReachableStatesRunOn := by
  intro P s hP h
  obtain ⟨hs, hparams⟩ := h.inv_and_params hP
  exact ⟨hs, hparams, hs.neverStops⟩

end Sys2Proof.Machine
end

section
/-! PROOFS. Chains (R196): changing `CMD` leaves no output to copy, so a copy is made before it; the copy and the change
together put the result copied before the next command. -/

namespace Sys2Proof.Machine

section
variable {s : State}

/-- Without an outcome on the ports `ERR` has no value. -/
theorem State.errPort_of_out_none (h : s.out = none) : s.errPort = none := by
  simp [State.errPort, h]

/-- Without an outcome on the ports `VAL_OUT` has no value to copy. -/
theorem State.feedValue_of_out_none (h : s.out = none) : s.feedValue = none := by
  simp [State.feedValue, State.valOutPort, h]

/-- Without an outcome on the ports `TXT_OUT` has no text to copy. -/
theorem State.feedText_of_out_none (h : s.out = none) : s.feedText = none := by
  simp [State.feedText, State.txtOutPort, h]

/-- Without an outcome on the ports `EXP_OUT` and `FRAC_OUT` have no fields to copy. -/
theorem State.feedFields_of_out_none (h : s.out = none) : s.feedFields = none := by
  simp [State.feedFields, State.expOutPort, h]

theorem State.withFetchWord_of_pending_nil (h : s.pending = []) (nbits w : Nat) :
    s.withFetchWord nbits w = s.changeCmd (BitVec.ofNat 4 w) := by
  simp [State.withFetchWord, h]

/-- With nothing pending, the step after a change of `CMD` evaluates the command put there on the operands held. -/
theorem step_changeCmd_encode (h : s.pending = []) (i : Instr) :
    step (s.changeCmd (encode i)) = exec i (s.changeCmd (encode i)) := by
  have hheld : (s.changeCmd (encode i)).presentNext = s.changeCmd (encode i) := State.presentNext_held _ h
  have hdecode : decode (s.changeCmd (encode i)).presentNext.commandWord = .ok i := by
    rw [hheld]
    exact decode_encode i
  rw [step_of_decode hdecode, hheld]

end

/-- Settles O51: the change is a presentation, which clears the outcome, and every output and every copy is read off the
outcome. -/
theorem changingCmdLosesTheOutputs : Obligations.ChangingCmdLosesTheOutputs := by
  intro s c
  have hout : (s.changeCmd c).out = none := s.changeCmd_out c
  exact ⟨rfl, rfl, State.errPort_of_out_none hout, portsDriven_of_out_none hout,
    State.feedValue_of_out_none hout, State.feedText_of_out_none hout, State.feedFields_of_out_none hout,
    fun nbits w h => State.withFetchWord_of_pending_nil h nbits w⟩

/-- Settles O52: a copy writes the result onto its operand port and leaves nothing pending, and changing `CMD` holds the
operand. -/
theorem copiedResultIsTheNextOperand : Obligations.CopiedResultIsTheNextOperand := by
  intro s t i hpending
  have hstep (p : Ports) : step ((s.present p).changeCmd (encode i)) = exec i ((s.present p).changeCmd (encode i)) :=
    step_changeCmd_encode ((State.present_pending p s).trans hpending) i
  refine ⟨fun hfeed => ?_, fun hfeed => ?_, fun hfeed => ?_⟩
  · obtain ⟨w, hw, rfl⟩ := State.feedValue_eq_some.mp hfeed
    exact ⟨w, hw, rfl, hstep _⟩
  · obtain ⟨txt, htxt, rfl⟩ := State.feedText_eq_some.mp hfeed
    exact ⟨txt, htxt, Ports.text_withText s.ports txt, hstep _⟩
  · obtain ⟨e, f, he, hf, rfl⟩ := State.feedFields_eq_some.mp hfeed
    exact ⟨e, f, he, hf, rfl, rfl, hstep _⟩

end Sys2Proof.Machine
end
